-- ==== Sys2Proof/Word.lean ====
section
/-! DEFINITION. The word of X86lite: 32 bits wide (spec rule R6, `XLEN`), and the byte a memory cell holds. -/

namespace Sys2Proof

/-- A word: the width of a register, an immediate, a memory word and an address (R6, R8).
`BitVec.toNat` is the spec's `u(v)` and `BitVec.toInt` its `s(v)`. -/
abbrev Word := BitVec 32

/-- One of the 2^32 bytes of memory (R60). -/
abbrev Byte := BitVec 8

end Sys2Proof
end

