-- ==== Sys2Proof/Syntax.lean ====
section
/-! DEFINITION. The abstract syntax of X86lite (spec/30_encoding.md rules R90 to R95): registers, condition codes, labels,
operands and the 21 instructions, in the order of the source's tables. -/

namespace Sys2Proof

/-- The eight general registers (R21, R94), in the order of the source's table. -/
inductive Reg where
  | eax | ebx | ecx | edx | esi | edi | ebp | esp
  deriving DecidableEq, Repr

/-- Register numbers (R23): the table's order, used for nothing but reference. They are not IA-32's encoding numbers. -/
def Reg.number : Reg → Nat
  | .eax => 0
  | .ebx => 1
  | .ecx => 2
  | .edx => 3
  | .esi => 4
  | .edi => 5
  | .ebp => 6
  | .esp => 7

/-- The eight condition codes (R34, R94). Two pairs of names share a meaning and stay distinct constructors (R35). -/
inductive CC where
  | eq | zero | notEq | notZero | slt | sge | sle | sgt
  deriving DecidableEq, Repr

/-- A label is a name, resolved to an address at load time (R95). -/
structure Label where
  name : String
  deriving DecidableEq, Repr

/-- The displacement of an indirect address: a constant or a label (R93). -/
inductive Disp where
  | imm (n : Word)
  | lbl (l : Label)
  deriving DecidableEq, Repr

/-- An indirect address (R93): three optional components; the index register and its scale are present or absent together. -/
structure Ind where
  base : Option Reg
  index : Option (Reg × Word)
  disp : Option Disp
  deriving DecidableEq, Repr

/-- The four operand forms (R92): `CImm`, `CLbl`, `Reg`, `Ind`. -/
inductive Operand where
  | imm (n : Word)
  | lbl (l : Label)
  | reg (r : Reg)
  | ind (i : Ind)
  deriving DecidableEq, Repr

/-- The 21 instructions (R91; conflict C1: 21, not 22). Destination first, source second. -/
inductive Instr where
  | neg (dest : Operand)
  | add (dest src : Operand)
  | sub (dest src : Operand)
  | imul (dest : Reg) (src : Operand)
  | not (dest : Operand)
  | and (dest src : Operand)
  | or (dest src : Operand)
  | xor (dest src : Operand)
  | sar (dest amt : Operand)
  | shl (dest amt : Operand)
  | shr (dest amt : Operand)
  | setb (dest : Operand) (cc : CC)
  | lea (dest : Reg) (src : Ind)
  | mov (dest src : Operand)
  | push (src : Operand)
  | pop (dest : Operand)
  | cmp (src1 src2 : Operand)
  | jmp (src : Operand)
  | call (src : Operand)
  | ret
  | j (cc : CC) (target : Label)
  deriving DecidableEq, Repr

/-- The labels an indirect address uses. -/
def Ind.labels (i : Ind) : List Label :=
  match i.disp with
  | some (.lbl l) => [l]
  | _ => []

/-- The labels an operand uses. -/
def Operand.labels : Operand → List Label
  | .lbl l => [l]
  | .ind i => i.labels
  | .imm _ => []
  | .reg _ => []

/-- The labels an instruction uses: each must be in the domain of `lbl` (R95, R108). -/
def Instr.labels : Instr → List Label
  | .neg d => d.labels
  | .add d s => d.labels ++ s.labels
  | .sub d s => d.labels ++ s.labels
  | .imul _ s => s.labels
  | .not d => d.labels
  | .and d s => d.labels ++ s.labels
  | .or d s => d.labels ++ s.labels
  | .xor d s => d.labels ++ s.labels
  | .sar d a => d.labels ++ a.labels
  | .shl d a => d.labels ++ a.labels
  | .shr d a => d.labels ++ a.labels
  | .setb d _ => d.labels
  | .lea _ i => i.labels
  | .mov d s => d.labels ++ s.labels
  | .push s => s.labels
  | .pop d => d.labels
  | .cmp a b => a.labels ++ b.labels
  | .jmp s => s.labels
  | .call s => s.labels
  | .ret => []
  | .j _ l => [l]

end Sys2Proof
end

