-- ==== Sys2Proof/WellFormed.lean ====
section
/-! DEFINITION. Well-formedness of an instruction (spec/30_encoding.md rules R100 to R106). R105 and R106 and the register
positions of Imul and Lea are already enforced by the types of `Instr` (R91); the decoder rejects terms that break them. -/

namespace Sys2Proof

/-- Why a term is not an X86lite instruction, one reason per static rule. -/
inductive IllFormed where
  /-- R100: the index component is ESP. -/
  | indexEsp
  /-- R101: two memory (Ind) operands. -/
  | twoMemory
  /-- R102: a shift amount that is neither an immediate nor ECX. -/
  | shiftAmountForm
  /-- R103: an immediate or a label where a location is needed. -/
  | destNotLocation
  deriving DecidableEq, Repr

/-- R100: the index, when present, is not ESP. ESP may be the base. -/
def Ind.indexOk (i : Ind) : Bool :=
  match i.index with
  | none => true
  | some (r, _) => r != .esp

/-- R100 for an operand. -/
def Operand.indexOk : Operand → Bool
  | .ind i => i.indexOk
  | .imm _ => true
  | .lbl _ => true
  | .reg _ => true

/-- The operand is a memory operand. -/
def Operand.isMem : Operand → Bool
  | .ind _ => true
  | .imm _ => false
  | .lbl _ => false
  | .reg _ => false

/-- R103: a location is a register or a memory word (`loc` of R104). -/
def Operand.isLoc : Operand → Bool
  | .reg _ => true
  | .ind _ => true
  | .imm _ => false
  | .lbl _ => false

/-- R102: `CImm n` or `Reg ECX`. -/
def Operand.isAmount : Operand → Bool
  | .imm _ => true
  | .reg r => r == .ecx
  | .lbl _ => false
  | .ind _ => false

/-- Format `F1D` (and the DEST of `F2DC`): a location. -/
def checkDest (d : Operand) : Option IllFormed :=
  if !d.isLoc then some .destNotLocation
  else if !d.indexOk then some .indexEsp
  else none

/-- Formats `F1S` and the SRC of `F2RS`: any value operand. -/
def checkSrc (s : Operand) : Option IllFormed :=
  if !s.indexOk then some .indexEsp else none

/-- Format `F2DS`: a location and a value, not both Ind. -/
def checkDestSrc (d s : Operand) : Option IllFormed :=
  if !d.isLoc then some .destNotLocation
  else if d.isMem && s.isMem then some .twoMemory
  else if !(d.indexOk && s.indexOk) then some .indexEsp
  else none

/-- Format `F2DA`: a location and a shift amount. -/
def checkDestAmt (d a : Operand) : Option IllFormed :=
  if !d.isLoc then some .destNotLocation
  else if !a.isAmount then some .shiftAmountForm
  else if !d.indexOk then some .indexEsp
  else none

/-- Format `F2SS`: two values, not both Ind. -/
def checkSrcSrc (a b : Operand) : Option IllFormed :=
  if a.isMem && b.isMem then some .twoMemory
  else if !(a.indexOk && b.indexOk) then some .indexEsp
  else none

/-- The first static rule an instruction breaks, if any (R100 to R104). -/
def Instr.illFormed? : Instr → Option IllFormed
  | .neg d => checkDest d
  | .add d s => checkDestSrc d s
  | .sub d s => checkDestSrc d s
  | .imul _ s => checkSrc s
  | .not d => checkDest d
  | .and d s => checkDestSrc d s
  | .or d s => checkDestSrc d s
  | .xor d s => checkDestSrc d s
  | .sar d a => checkDestAmt d a
  | .shl d a => checkDestAmt d a
  | .shr d a => checkDestAmt d a
  | .setb d _ => checkDest d
  | .lea _ i => if !i.indexOk then some .indexEsp else none
  | .mov d s => checkDestSrc d s
  | .push s => checkSrc s
  | .pop d => checkDest d
  | .cmp a b => checkSrcSrc a b
  | .jmp s => checkSrc s
  | .call s => checkSrc s
  | .ret => none
  | .j _ _ => none

/-- An instruction meets rules R100 to R106. -/
abbrev Instr.WellFormed (i : Instr) : Prop := i.illFormed? = none

end Sys2Proof
end

