-- ==== Sys2Proof/Decode.lean ====
section
/-! DEFINITION. From terms to instructions and back. X86lite has no binary encoding (spec/30_encoding.md rule R90): an
instruction is written as a constructor's name applied to operands (R91, R111), and that name "is the only opcode the source
has" (R110). `decode` is total on terms and rejects by name; `encode` writes an instruction's term. Log entry 2. -/

namespace Sys2Proof

/-- The ten operand shapes of R104. -/
inductive Format where
  | f0 | f1d | f1s | f2ds | f2rs | f2da | f2dc | f2ri | f2ss | f2cl
  deriving DecidableEq, Repr

/-- The 21 constructor names (R91, R110). -/
inductive Opcode where
  | neg | add | sub | imul | not | and | or | xor | sar | shl | shr | setb | lea | mov | push | pop | cmp | jmp | call | ret | j
  deriving DecidableEq, Repr

/-- The name as `opcode_table.json` spells it. -/
def Opcode.name : Opcode → String
  | .neg => "Neg"
  | .add => "Add"
  | .sub => "Sub"
  | .imul => "Imul"
  | .not => "Not"
  | .and => "And"
  | .or => "Or"
  | .xor => "Xor"
  | .sar => "Sar"
  | .shl => "Shl"
  | .shr => "Shr"
  | .setb => "Setb"
  | .lea => "Lea"
  | .mov => "Mov"
  | .push => "Push"
  | .pop => "Pop"
  | .cmp => "Cmp"
  | .jmp => "Jmp"
  | .call => "Call"
  | .ret => "Ret"
  | .j => "J"

/-- The format column of R110 and `opcode_table.json`. -/
def Opcode.format : Opcode → Format
  | .neg => .f1d
  | .add => .f2ds
  | .sub => .f2ds
  | .imul => .f2rs
  | .not => .f1d
  | .and => .f2ds
  | .or => .f2ds
  | .xor => .f2ds
  | .sar => .f2da
  | .shl => .f2da
  | .shr => .f2da
  | .setb => .f2dc
  | .lea => .f2ri
  | .mov => .f2ds
  | .push => .f1s
  | .pop => .f1d
  | .cmp => .f2ss
  | .jmp => .f1s
  | .call => .f1s
  | .ret => .f0
  | .j => .f2cl

/-- The rows of the opcode table, in its order. -/
def opcodes : List Opcode :=
  [.neg, .add, .sub, .imul, .not, .and, .or, .xor, .sar, .shl, .shr] ++
  [.setb, .lea, .mov, .push, .pop, .cmp, .jmp, .call, .ret, .j]

/-- The row a name selects, if any. -/
def opcodeOfName (n : String) : Option Opcode := opcodes.find? (fun o => o.name == n)

/-- One written argument (R111): an operand, a bare register, an indirect address, a condition code or a bare label. -/
inductive Arg where
  | opnd (o : Operand)
  | reg (r : Reg)
  | ind (i : Ind)
  | cc (c : CC)
  | label (l : Label)
  deriving DecidableEq, Repr

/-- A term: a constructor's name applied to arguments, destination first. -/
structure Term where
  head : String
  args : List Arg
  deriving DecidableEq, Repr

/-- Why the decoder refuses a term. -/
inductive DecodeError where
  /-- No row of the opcode table has this name: there is no twenty-second instruction (C1, R112). -/
  | unknownName (n : String)
  /-- The arguments do not have the kinds of the instruction's format (R104 to R106). -/
  | operandKinds (o : Opcode)
  /-- The term breaks one of R100 to R103. -/
  | illFormed (why : IllFormed)
  deriving DecidableEq, Repr

/-- Put the arguments into the typed positions of R91; `none` where a kind is wrong. -/
def build (o : Opcode) (args : List Arg) : Option Instr :=
  match o, args with
  | .neg, [.opnd d] => some (.neg d)
  | .add, [.opnd d, .opnd s] => some (.add d s)
  | .sub, [.opnd d, .opnd s] => some (.sub d s)
  | .imul, [.reg r, .opnd s] => some (.imul r s)
  | .not, [.opnd d] => some (.not d)
  | .and, [.opnd d, .opnd s] => some (.and d s)
  | .or, [.opnd d, .opnd s] => some (.or d s)
  | .xor, [.opnd d, .opnd s] => some (.xor d s)
  | .sar, [.opnd d, .opnd a] => some (.sar d a)
  | .shl, [.opnd d, .opnd a] => some (.shl d a)
  | .shr, [.opnd d, .opnd a] => some (.shr d a)
  | .setb, [.opnd d, .cc c] => some (.setb d c)
  | .lea, [.reg r, .ind i] => some (.lea r i)
  | .mov, [.opnd d, .opnd s] => some (.mov d s)
  | .push, [.opnd s] => some (.push s)
  | .pop, [.opnd d] => some (.pop d)
  | .cmp, [.opnd a, .opnd b] => some (.cmp a b)
  | .jmp, [.opnd s] => some (.jmp s)
  | .call, [.opnd s] => some (.call s)
  | .ret, [] => some .ret
  | .j, [.cc c, .label l] => some (.j c l)
  | _, _ => none

/-- The decoder: total on every term, rejecting by name (R90, R104 to R106, R108). On a well-formed term it is the
identity of R90, written between two types. -/
def decode (t : Term) : Except DecodeError Instr :=
  match opcodeOfName t.head with
  | none => .error (.unknownName t.head)
  | some o =>
    match build o t.args with
    | none => .error (.operandKinds o)
    | some i =>
      match i.illFormed? with
      | some why => .error (.illFormed why)
      | none => .ok i

/-- The constructor of an instruction. -/
def Instr.opcode : Instr → Opcode
  | .neg _ => .neg
  | .add _ _ => .add
  | .sub _ _ => .sub
  | .imul _ _ => .imul
  | .not _ => .not
  | .and _ _ => .and
  | .or _ _ => .or
  | .xor _ _ => .xor
  | .sar _ _ => .sar
  | .shl _ _ => .shl
  | .shr _ _ => .shr
  | .setb _ _ => .setb
  | .lea _ _ => .lea
  | .mov _ _ => .mov
  | .push _ => .push
  | .pop _ => .pop
  | .cmp _ _ => .cmp
  | .jmp _ => .jmp
  | .call _ => .call
  | .ret => .ret
  | .j _ _ => .j

/-- The arguments of an instruction, in the written order of R91 and R111. -/
def Instr.args : Instr → List Arg
  | .neg d => [.opnd d]
  | .add d s => [.opnd d, .opnd s]
  | .sub d s => [.opnd d, .opnd s]
  | .imul r s => [.reg r, .opnd s]
  | .not d => [.opnd d]
  | .and d s => [.opnd d, .opnd s]
  | .or d s => [.opnd d, .opnd s]
  | .xor d s => [.opnd d, .opnd s]
  | .sar d a => [.opnd d, .opnd a]
  | .shl d a => [.opnd d, .opnd a]
  | .shr d a => [.opnd d, .opnd a]
  | .setb d c => [.opnd d, .cc c]
  | .lea r i => [.reg r, .ind i]
  | .mov d s => [.opnd d, .opnd s]
  | .push s => [.opnd s]
  | .pop d => [.opnd d]
  | .cmp a b => [.opnd a, .opnd b]
  | .jmp s => [.opnd s]
  | .call s => [.opnd s]
  | .ret => []
  | .j c l => [.cc c, .label l]

/-- The term of an instruction (R111). -/
def encode (i : Instr) : Term := ⟨i.opcode.name, i.args⟩

/-- The term that a bit pattern denotes: none, for every pattern. The source defines no bits for any instruction, every
row of `opcode_table.json` has `match` and `mask` null, and R90 and D3 forbid inventing an encoding. -/
def termOfBits (_nbits _w : Nat) : Option Term := none

/-- The instruction read from the bits of an opcode-table row: no bit pattern names one (R90). Log entry 2. -/
def decodeTableWord (nbits w : Nat) : Option Instr :=
  match termOfBits nbits w with
  | none => none
  | some t =>
    match decode t with
    | .ok i => some i
    | .error _ => none

end Sys2Proof
end

