-- ==== Sys2Proof/Config.lean ====
section
/-! DEFINITION. What the spec leaves open for good: the free value of the model. Everything a launch supplies (`Prog`,
`lbl`, `ILEN`, the policies, ...) is plain data of `Machine.Env` and `Machine.Launch`, so that claims range over all of it. -/

namespace Sys2Proof

/-- The spec's `draw` (R33): the bits that Imul leaves in SF and ZF, one after another. It has no body, so nothing can be
proved about any of them: a claim that holds, holds whichever bits the machine draws. Log entry 1. -/
opaque Config.freeBit : Nat → Bool

end Sys2Proof
end

