-- ==== Sys2Proof/Machine/Bits.lean ====
section
/-! DEFINITION. Arithmetic notation of the spec (spec/00_scope.md rule R8) and the pieces of a word. -/

namespace Sys2Proof.Machine

/-- R8: the word `w` with `u(w) = n mod 2^32`. -/
def trunc32 (n : Int) : Word := BitVec.ofInt 32 n

/-- R8: the most negative word; its negation does not fit in 32 bits. -/
def minInt : Word := 0x80000000#32

/-- R61, R66: divisible by 4. -/
def aligned (a : Word) : Bool := a.toNat % 4 == 0

/-- Byte `k` of a word, byte 0 the least significant: the nominal little-endian order of R64 (log entry 5). -/
def byteOf (v : Word) (k : Nat) : Byte := v.extractLsb' (8 * k) 8

/-- The word with the given bytes, the first the least significant (R64). -/
def wordOf (b0 b1 b2 b3 : Byte) : Word := b3 ++ b2 ++ b1 ++ b0

/-- R174: bits 7:0 of `v` replaced by `b`, bits 31:8 kept. -/
def withLowByte (v : Word) (b : Byte) : Word := v.extractLsb' 8 24 ++ b

end Sys2Proof.Machine
end

