-- ==== Sys2Proof/Machine/Memory.lean ====
section
/-! DEFINITION. Data memory (spec/20_memory.md rules R60 to R64): all 2^32 bytes, as a list of cells in one canonical form.
Addresses strictly rise, stay below 2^32, and no cell holds what an unlisted address reads as, so equal memories are equal
lists. Every wide access is built here, so the byte order is decided once. -/

namespace Sys2Proof.Machine

/-- The bytes that differ from `unlistedByte`, by address. -/
abbrev Memory := List Host.Cell

/-- What an address that no cell lists reads as. DESIGN CHOICE, unsafe for a claim about a run from one launch that reads a
word nothing wrote: the spec leaves such words unspecified (R40, R41) and bars assuming zero. A launch may list any byte at
any address, so claims over every launch or every state do range over every memory. Log entry 4. -/
def unlistedByte : Byte := 0xa5#8

/-- The byte at an address. -/
def Memory.readByte : Memory → Nat → Byte
  | [], _ => unlistedByte
  | (b, w) :: rest, a => if a = b then w else Memory.readByte rest a

/-- Store a byte, keeping the canonical form. -/
def Memory.writeByte : Memory → Nat → Byte → Memory
  | [], a, v => if v = unlistedByte then [] else [(a, v)]
  | (b, w) :: rest, a, v =>
    if a < b then (if v = unlistedByte then (b, w) :: rest else (a, v) :: (b, w) :: rest)
    else if a = b then (if v = unlistedByte then rest else (a, v) :: rest)
    else (b, w) :: Memory.writeByte rest a v

/-- The canonical form from a least address on. -/
def Memory.wfFrom (lo : Nat) : Memory → Bool
  | [] => true
  | (a, v) :: rest => decide (lo ≤ a) && decide (a < 2 ^ 32) && decide (v ≠ unlistedByte) && Memory.wfFrom (a + 1) rest

/-- The canonical form: addresses strictly rising and below 2^32, no cell that says what an unlisted address reads as. -/
def Memory.wf (m : Memory) : Bool := Memory.wfFrom 0 m

/-- `mem[a]` (R63): the word whose four bytes start at `a`, little-endian (R64). -/
def Memory.readWord (m : Memory) (a : Nat) : Word :=
  wordOf (m.readByte a) (m.readByte (a + 1)) (m.readByte (a + 2)) (m.readByte (a + 3))

/-- `mem[a] <- v` (R63), all four bytes. -/
def Memory.writeWord (m : Memory) (a : Nat) (v : Word) : Memory :=
  (((m.writeByte a (byteOf v 0)).writeByte (a + 1) (byteOf v 1)).writeByte (a + 2) (byteOf v 2)).writeByte (a + 3) (byteOf v 3)

end Sys2Proof.Machine
end

