-- ==== Sys2Proof/Machine/State.lean ====
section
/-! DEFINITION. The architectural state of X86lite (spec/10_state.md rule R20), beside it the parameters of a launch that a
step reads (spec/00_scope.md rule R7), the reasons a step stops, and the state a launch leaves. All of it is plain data. -/

namespace Sys2Proof.Machine

/-- R241: the five model-level faults, a closed list. A fault is precise: the stopped state is the state before the faulting
instruction, EIP included (R245). No handler exists and nothing is saved. -/
inductive Fault where
  /-- Code 1. Raised by the fetch of a step when EIP is not `EXIT_ADDR` and holds no instruction (R26). Safe: the run stops. -/
  | noInstruction (pc : Word)
  /-- Code 2. Raised by Push, Pop and Call on an operand that depends on ESP, under the policy `fault` (R194). Safe. -/
  | espOperand (i : Instr)
  /-- Code 3. Raised by Sar, Shl and Shr on an amount above 31, under the policy `fault` (R170). Safe. -/
  | shiftAmount (amt : Nat)
  /-- Code 4. Raised by every data access at an address not divisible by 4 (R63, R66). Safe. -/
  | misaligned (a : Word)
  /-- Code 5. Raised by a data access at an aligned address that `DataValid` does not allow (R63, R67). Safe. -/
  | invalidAddress (a : Word)
  deriving DecidableEq, Repr

/-- R241: the fault's code. -/
def Fault.code : Fault → Nat
  | .noInstruction _ => 1
  | .espOperand _ => 2
  | .shiftAmount _ => 3
  | .misaligned _ => 4
  | .invalidAddress _ => 5

/-- Where no instruction is executed at all. -/
inductive Refusal where
  /-- Raised by `exec` for an instruction that has no meaning in the model. No arm uses it. Safe: nothing is claimed. -/
  | notModelled (mnemonic : String)
  /-- Raised by `exec` on a term that breaks R100 to R103: "no rule gives one a meaning" (R108). The loader refuses a program
  that holds one, so no launched run meets it. Safe. -/
  | illFormed (why : IllFormed)
  /-- Raised by `exec` on an instruction with a label outside the domain of `lbl`: refused at load too (R108). Safe. -/
  | unresolvedLabel (l : Label)
  /-- Raised by the fetch of a step in a final state, EIP = `EXIT_ADDR`: "the machine takes no step" (R274). It is the end of
  a run and no fault. Safe. -/
  | runEnded
  deriving DecidableEq, Repr

/-- The eight general registers, 32 bits each (R21). None is hardwired or aliased (R22). -/
structure RegFile where
  eax : Word
  ebx : Word
  ecx : Word
  edx : Word
  esi : Word
  edi : Word
  ebp : Word
  esp : Word
  deriving DecidableEq, Repr

/-- The three condition flags (R28); `true` is the spec's 1. -/
structure Flags where
  OF : Bool
  SF : Bool
  ZF : Bool
  deriving DecidableEq, Repr

/-- `SHIFT_AMT_POLICY` (R170). -/
inductive ShiftAmtPolicy where
  | fault | mask5
  deriving DecidableEq, Repr

/-- `ESP_OPERAND_POLICY` (R194). -/
inductive EspOperandPolicy where
  | fault | sequential | before
  deriving DecidableEq, Repr

/-- `SHL_OF_POLICY` (R172). -/
inductive ShlOfPolicy where
  | literal | assign
  deriving DecidableEq, Repr

/-- A range of addresses that a narrowed `DataValid` admits, both ends included (R69). -/
structure Window where
  first : Word
  last : Word
  deriving DecidableEq, Repr

/-- The words that `DataValid` bars because instructions stand there. The two readings differ only where `ILEN` is above 4
and no file chooses between them, so a launch names one. Log entry 11. -/
inductive CodeExtent where
  /-- The code region of R67: every word of the `ILEN` bytes of every instruction. -/
  | slots
  /-- R7 and D9: the addresses of `dom(Prog)`, and no further word. -/
  | starts
  deriving DecidableEq, Repr

/-- The launch's parameters that a step reads (R7). They are not architectural state: no instruction changes them (R20). They
stand in `State` because the machine's interface passes a step nothing else. Log entry 3. -/
structure Env where
  /-- `Prog`: the program text, the instruction at each address that holds one. -/
  prog : List (Word × Instr)
  /-- `ILEN`: bytes between one instruction and the next. -/
  ilen : Nat
  /-- `lbl`: the address of each label. -/
  lbl : List (Label × Word)
  /-- `EXIT_ADDR`: reaching it ends the run. -/
  exitAddr : Word
  /-- `DataValid`: which words of the text its default bars (R7, R67, D9). -/
  codeExtent : CodeExtent
  /-- `DataValid`: `none` is that default; `some ws` narrows it to the addresses inside the windows (R69). -/
  dataWindows : Option (List Window)
  shiftAmt : ShiftAmtPolicy
  espOperand : EspOperandPolicy
  shlOf : ShlOfPolicy
  deriving DecidableEq, Repr

/-- R20: eight registers, EIP, three flags and memory; `draws` and `env` are the model's own (log entries 1 and 3). -/
structure State where
  regs : RegFile
  /-- EIP (R24, R25). -/
  pc : Word
  flags : Flags
  mem : Memory
  /-- How many free bits have been drawn (R33). -/
  draws : Nat
  env : Env
  deriving DecidableEq, Repr

/-- The launch parameters before a program is loaded: R7's defaults, and `EXIT_ADDR` of the common launch
(spec/95_test_vectors.md section 3). DESIGN CHOICE for the values R7 gives no default for; log entry 6. -/
def Env.reset : Env where
  prog := []
  ilen := 4
  lbl := []
  exitAddr := 0xfffffff0#32
  codeExtent := .slots
  dataWindows := none
  shiftAmt := .fault
  espOperand := .fault
  shlOf := .literal

/-- The first state of a launch (R40, R271) under the common launch of spec/95_test_vectors.md section 3: EIP = `ENTRY` =
0x00001000, ESP = `STACK_TOP` - 4 = 0x000ffffc, and the return address `EXIT_ADDR` on the stack. The other registers and the
flags are unspecified by R40; they hold that section's marker values. DESIGN CHOICE, unsafe; log entries 6 and 7. No program
is loaded. -/
def State.reset : State where
  regs :=
    { eax := 0xdead0000#32, ebx := 0xdead0001#32, ecx := 0xdead0002#32, edx := 0xdead0003#32,
      esi := 0xdead0004#32, edi := 0xdead0005#32, ebp := 0xdead0006#32, esp := 0x000ffffc#32 }
  pc := 0x00001000#32
  flags := { OF := false, SF := false, ZF := false }
  mem := [(0x000ffffc, 0xf0#8), (0x000ffffd, 0xff#8), (0x000ffffe, 0xff#8), (0x000fffff, 0xff#8)]
  draws := 0
  env := Env.reset

end Sys2Proof.Machine
end

