-- ==== Sys2Proof/Machine/Flags.lean ====
section
/-! DEFINITION. Every flag computation of the spec, and the condition codes that read the flags. Each function takes the
flags before the instruction and answers the flags after it. -/

namespace Sys2Proof.Machine

/-- `SZ(r)` (R31): SF is bit 31 of the result, ZF says it is 0; OF is kept. -/
def Flags.sz (f : Flags) (r : Word) : Flags := { f with SF := r.msb, ZF := r == 0 }

/-- Neg (R132): OF says DEST was MIN_INT. -/
def negFlags (d r : Word) : Flags := Flags.sz { OF := d == minInt, SF := false, ZF := false } r

/-- Add (R133): OF says that D64 and S64 have the same sign and R32 another. -/
def addOverflow (d v r : Word) : Bool := d.msb == v.msb && r.msb != v.msb

/-- Add (R133). -/
def addFlags (d v r : Word) : Flags := Flags.sz { OF := addOverflow d v r, SF := false, ZF := false } r

/-- Sub (R134, conflicts C2 and C3): D64 and -S64 have the same sign and R32 another, or SRC is MIN_INT. -/
def subOverflow (d v r : Word) : Bool :=
  let sn := decide (-v.toInt < 0)
  (d.msb == sn && r.msb != sn) || v == minInt

/-- Sub and Cmp (R134, R210). -/
def subFlags (d v r : Word) : Flags := Flags.sz { OF := subOverflow d v r, SF := false, ZF := false } r

/-- Imul (R135): OF says that R64 is no 32-bit signed number. -/
def imulOverflow (r64 : Int) : Bool := decide (r64 < -2 ^ 31) || decide (r64 > 2 ^ 31 - 1)

/-- And, Or, Xor (R150): OF is 0. -/
def logicFlags (r : Word) : Flags := Flags.sz { OF := false, SF := false, ZF := false } r

/-- The flags SF and ZF of a shift: unaffected by amount 0, else as usual (R171 to R173). -/
def shiftSz (f : Flags) (r : Word) (amt : Nat) : Flags := if amt = 0 then f else f.sz r

/-- Sar (R171): amount 1 clears OF; any other amount keeps it. -/
def sarFlags (f : Flags) (r : Word) (amt : Nat) : Flags :=
  let g := shiftSz f r amt
  if amt = 1 then { g with OF := false } else g

/-- Shl (R172): for amount 1, OF is set when bits 31 and 30 of DEST differ; when they agree it is kept (`literal`) or
cleared (`assign`). Any other amount keeps it. -/
def shlFlags (p : ShlOfPolicy) (f : Flags) (d r : Word) (amt : Nat) : Flags :=
  let g := shiftSz f r amt
  if amt = 1 then
    match p with
    | .literal => if d.getLsbD 31 != d.getLsbD 30 then { g with OF := true } else g
    | .assign => { g with OF := d.getLsbD 31 != d.getLsbD 30 }
  else g

/-- Shr (R173): amount 1 moves bit 31 of DEST to OF; any other amount keeps it. -/
def shrFlags (f : Flags) (d r : Word) (amt : Nat) : Flags :=
  let g := shiftSz f r amt
  if amt = 1 then { g with OF := d.getLsbD 31 } else g

/-- `Cond(cc)` (R34, R35), on the flags alone. -/
def Flags.cond (f : Flags) : CC → Bool
  | .eq => f.ZF
  | .zero => f.ZF
  | .notEq => !f.ZF
  | .notZero => !f.ZF
  | .slt => f.SF != f.OF
  | .sge => f.SF == f.OF
  | .sle => (f.SF != f.OF) || f.ZF
  | .sgt => !((f.SF != f.OF) || f.ZF)

end Sys2Proof.Machine
end

