-- ==== Sys2Proof/Machine/Ops.lean ====
section
/-! DEFINITION. The named operations over registers, memory, the program counter and the launch's parameters, which every
meaning is built from; and the one operation that stops a step with a fault. -/

namespace Sys2Proof.Machine

/-- What an operation answers: a value (or the next state), a fault, or a refusal. -/
abbrev Result (α : Type) := Host.Outcome α Fault Refusal

/-- Do `r`, then `k` on its answer; a fault or a refusal ends the instruction. -/
def andThen {α β : Type} (r : Result α) (k : α → Result β) : Result β :=
  match r with
  | .next a => k a
  | .fault f => .fault f
  | .refused q => .refused q

/-- `raise F(info)` (R10, R245). X86lite has no exception to enter and none to return from (R240, R246): the step answers
the fault and no state, so every register, flag, memory word and EIP is as before the instruction. -/
def raise {α : Type} (f : Fault) : Result α := .fault f

/-! ### Registers -/

/-- `x[r]` (R21). -/
def RegFile.get (f : RegFile) : Reg → Word
  | .eax => f.eax
  | .ebx => f.ebx
  | .ecx => f.ecx
  | .edx => f.edx
  | .esi => f.esi
  | .edi => f.edi
  | .ebp => f.ebp
  | .esp => f.esp

/-- `x[r] <- v` (R21): all 32 bits of `r`, no other register. -/
def RegFile.set (f : RegFile) (r : Reg) (v : Word) : RegFile :=
  match r with
  | .eax => { f with eax := v }
  | .ebx => { f with ebx := v }
  | .ecx => { f with ecx := v }
  | .edx => { f with edx := v }
  | .esi => { f with esi := v }
  | .edi => { f with edi := v }
  | .ebp => { f with ebp := v }
  | .esp => { f with esp := v }

/-- Read a register of the state. -/
def State.getReg (s : State) (r : Reg) : Word := s.regs.get r

/-- Write a register of the state. -/
def State.setReg (s : State) (r : Reg) (v : Word) : State := { s with regs := s.regs.set r v }

/-- Replace the three flags. -/
def State.withFlags (s : State) (f : Flags) : State := { s with flags := f }

/-- Replace the whole of memory. -/
def State.withMem (s : State) (m : Memory) : State := { s with mem := m }

/-! ### The program counter -/

/-- `npc` (R26, R27): the address of the next instruction, modulo 2^32. -/
def State.npc (s : State) : Word := BitVec.ofNat 32 (s.pc.toNat + s.env.ilen)

/-- `pc <- t` (R10). The target is not checked here (R27). -/
def State.jump (s : State) (t : Word) : State := { s with pc := t }

/-- Fall through to the next instruction (R26). -/
def State.advance (s : State) : State := s.jump s.npc

/-! ### Labels and program text -/

/-- The value a finite map gives a key, if any; the first entry of the key counts. -/
def lookup {α β : Type} [DecidableEq α] (k : α) : List (α × β) → Option β
  | [] => none
  | (a, b) :: rest => if k = a then some b else lookup k rest

/-- The address a label resolves to, if any (R95). -/
def Env.label? (e : Env) (l : Label) : Option Word := lookup l e.lbl

/-- `lbl(l)` (R95). A label without an address never gets here: `ifAdmissible` refuses its instruction first (R108), and so does a
launch, so the 0 below is never seen. -/
def Env.labelAddr (e : Env) (l : Label) : Word := (e.label? l).getD 0

/-- `Prog(a)` (R25). -/
def Env.instrAt (e : Env) (a : Word) : Option Instr := lookup a e.prog

/-- The first label of a list that `lbl` gives no address. -/
def Env.unresolved (e : Env) (ls : List Label) : Option Label := ls.find? (fun l => (e.label? l).isNone)

/-- The instruction cycle's fetch (R26): a final state takes no step (R274); an address without an instruction faults with
EIP as it is (R27); fetch reads `Prog` and never memory (R67, R74). -/
def State.fetch (s : State) : Result Instr :=
  if s.pc = s.env.exitAddr then .refused .runEnded
  else
    match s.env.instrAt s.pc with
    | none => raise (.noInstruction s.pc)
    | some i => .next i

/-- R108: an ill-formed instruction or one with an unresolved label has no meaning; any other is executed as `r` says. -/
def ifAdmissible (i : Instr) (s : State) (r : Result State) : Result State :=
  match i.illFormed? with
  | some why => .refused (.illFormed why)
  | none =>
    match s.env.unresolved i.labels with
    | some l => .refused (.unresolvedLabel l)
    | none => r

/-- Place `i` where the next fetch reads, as a load would: at EIP, with `EXIT_ADDR` moved off that address if it was there. -/
def State.withInstr (s : State) (i : Instr) : State :=
  { s with env :=
      { s.env with
        prog := (s.pc, i) :: s.env.prog.filter (fun p => p.1 ≠ s.pc)
        exitAddr := if s.pc = s.env.exitAddr then s.pc + 4 else s.env.exitAddr } }

/-! ### Data memory -/

/-- The words of the text that hold no data: every address of `dom(Prog)` (R7, D9), and under `slots` the rest of the
`ILEN` bytes from it on, modulo 2^32 (R67). -/
def Env.inCode (e : Env) (a : Word) : Bool :=
  e.prog.any fun p => a == p.1 || (e.codeExtent == .slots && decide ((a - p.1).toNat < e.ilen))

/-- The address lies in a window. -/
def Window.admits (w : Window) (a : Word) : Bool := decide (w.first.toNat ≤ a.toNat) && decide (a.toNat ≤ w.last.toNat)

/-- `DataValid(a)` for an aligned address (R7, R67, R69, D9): never in the text; inside a window if the launch narrows it. -/
def Env.dataValid (e : Env) (a : Word) : Bool :=
  !e.inCode a &&
    match e.dataWindows with
    | none => true
    | some ws => ws.any (fun w => w.admits a)

/-- The checks of a data access (R63), `Misaligned` before `InvalidAddress` (R244). -/
def Env.accessFault (e : Env) (a : Word) : Option Fault :=
  if !aligned a then some (.misaligned a)
  else if !e.dataValid a then some (.invalidAddress a)
  else none

/-- `MemRead(a, 4)` (R63). -/
def State.memRead (s : State) (a : Word) : Result Word :=
  match s.env.accessFault a with
  | some f => raise f
  | none => .next (s.mem.readWord a.toNat)

/-- `MemWrite(a, 4, v)` (R63). -/
def State.memWrite (s : State) (a : Word) (v : Word) : Result State :=
  match s.env.accessFault a with
  | some f => raise f
  | none => .next (s.withMem (s.mem.writeWord a.toNat v))

/-! ### The stack (R76) -/

/-- `trunc32(ESP - 4)`: where a push stores. -/
def State.pushAddr (s : State) : Word := s.getReg .esp - 4

/-- Push a word: store below ESP, then move ESP down; on a fault ESP is not moved (R192, R212). -/
def State.pushWord (s : State) (v : Word) : Result State :=
  andThen (s.memWrite s.pushAddr v) fun t => .next (t.setReg .esp s.pushAddr)

/-- Move ESP up by one word, modulo 2^32 (R193, R213). -/
def State.popped (s : State) : State := s.setReg .esp (s.getReg .esp + 4)

end Sys2Proof.Machine
end

