-- ==== Sys2Proof/Machine/Operands.lean ====
section
/-! DEFINITION. Operands: the effective address, the value and the location of an operand (spec/30_encoding.md rules R96 to
R98), the shift amount (R170), dependence on ESP (R194), and the read-modify-write shape shared by most instructions. -/

namespace Sys2Proof.Machine

/-- The value of a displacement: a constant or a label's address (R98). -/
def dispValue (e : Env) : Disp → Word
  | .imm n => n
  | .lbl l => e.labelAddr l

/-- `EA(i)` (R98): base + index * scale + displacement modulo 2^32, a missing part 0. Any scale is admitted (R99). It reads
registers only and never faults. -/
def ea (s : State) (i : Ind) : Word :=
  let b := match i.base with
    | some r => s.getReg r
    | none => 0
  let xs := match i.index with
    | some (r, k) => s.getReg r * k
    | none => 0
  let d := match i.disp with
    | some d => dispValue s.env d
    | none => 0
  b + xs + d

/-- `Val(op)` (R96). -/
def val (s : State) : Operand → Result Word
  | .imm n => .next n
  | .lbl l => .next (s.env.labelAddr l)
  | .reg r => .next (s.getReg r)
  | .ind i => s.memRead (ea s i)

/-- `Store(op, v)` (R97). An immediate and a label denote no location; `ifAdmissible` refuses such an instruction first (R103). -/
def store (s : State) (d : Operand) (v : Word) : Result State :=
  match d with
  | .reg r => .next (s.setReg r v)
  | .ind i => s.memWrite (ea s i) v
  | .imm _ => .refused (.illFormed .destNotLocation)
  | .lbl _ => .refused (.illFormed .destNotLocation)

/-- Read DEST, compute its new value and the new flags, store, and fall through. -/
def modifyDest (s : State) (d : Operand) (value : Word → Word) (flags : Word → Flags) : Result State :=
  andThen (val s d) fun x =>
    andThen (store s d (value x)) fun t => .next (t.withFlags (flags x)).advance

/-- The amount of a shift (R170): the whole operand read unsigned; above 31 the policy decides. -/
def shiftAmount (s : State) (a : Operand) : Result Nat :=
  andThen (val s a) fun w =>
    if w.toNat ≤ 31 then .next w.toNat
    else
      match s.env.shiftAmt with
      | .fault => raise (.shiftAmount w.toNat)
      | .mask5 => .next (w.toNat % 32)

/-- R194: `Reg ESP`, or an Ind whose base is ESP. -/
def dependsOnEsp : Operand → Bool
  | .reg r => r == .esp
  | .ind i => i.base == some .esp
  | .imm _ => false
  | .lbl _ => false

/-- How Push, Pop or Call treats its operand: as its rule's pseudocode says where it does not depend on ESP, else as
`ESP_OPERAND_POLICY` says (R194). -/
def espPolicy (s : State) (o : Operand) : EspOperandPolicy :=
  if dependsOnEsp o then s.env.espOperand else .before

end Sys2Proof.Machine
end

