-- ==== Sys2Proof/Machine/Arithmetic.lean ====
section
/-! DEFINITION. Neg, Add, Sub, Imul (spec/40_arithmetic.md rules R130 to R135). The exact result is computed on integers and
truncated once (R131). -/

namespace Sys2Proof.Machine

/-- Neg (R132). -/
def negValue (d : Word) : Word := trunc32 (0 - d.toInt)

/-- Add (R133). -/
def addValue (d v : Word) : Word := trunc32 (d.toInt + v.toInt)

/-- Sub (R134): the sum of DEST and -S64. -/
def subValue (d v : Word) : Word := trunc32 (d.toInt + -v.toInt)

/-- Imul (R135): the exact product R64. -/
def mulExact (d v : Word) : Int := d.toInt * v.toInt

/-- Imul (R135): the flags and the count of draws. OF is defined; SF and ZF are two fresh free bits (R33). -/
def State.withMulFlags (s : State) (r64 : Int) : State :=
  { s with
    flags := { OF := imulOverflow r64, SF := Config.freeBit s.draws, ZF := Config.freeBit (s.draws + 1) }
    draws := s.draws + 2 }

/-- R132. -/
def execNeg (d : Operand) (s : State) : Result State :=
  ifAdmissible (.neg d) s (modifyDest s d negValue fun x => negFlags x (negValue x))

/-- R133. -/
def execAdd (d src : Operand) (s : State) : Result State :=
  ifAdmissible (.add d src) s
    (andThen (val s src) fun v => modifyDest s d (fun x => addValue x v) fun x => addFlags x v (addValue x v))

/-- R134. -/
def execSub (d src : Operand) (s : State) : Result State :=
  ifAdmissible (.sub d src) s
    (andThen (val s src) fun v => modifyDest s d (fun x => subValue x v) fun x => subFlags x v (subValue x v))

/-- R135. -/
def execImul (d : Reg) (src : Operand) (s : State) : Result State :=
  ifAdmissible (.imul d src) s
    (andThen (val s src) fun v =>
      let r64 := mulExact (s.getReg d) v
      .next ((s.setReg d (trunc32 r64)).withMulFlags r64).advance)

end Sys2Proof.Machine
end

