-- ==== Sys2Proof/Machine/BitManip.lean ====
section
/-! DEFINITION. Sar, Shl, Shr, Setb (spec/42_bit_manipulation.md rules R170 to R175). The amount is read, and checked, before
the destination (R244). -/

namespace Sys2Proof.Machine

/-- Sar (R171): the floor of the signed quotient by a power of two. -/
def sarValue (d : Word) (amt : Nat) : Word := trunc32 (Int.fdiv d.toInt (2 ^ amt))

/-- Shl (R172): the product with a power of two, modulo 2^32. -/
def shlValue (d : Word) (amt : Nat) : Word := BitVec.ofNat 32 (d.toNat * 2 ^ amt)

/-- Shr (R173): the floor of the unsigned quotient by a power of two. -/
def shrValue (d : Word) (amt : Nat) : Word := BitVec.ofNat 32 (d.toNat / 2 ^ amt)

/-- Setb (R174): the low byte says whether the condition holds; the upper 24 bits are kept. -/
def setbValue (d : Word) (c : Bool) : Word := withLowByte d (if c then 0x01#8 else 0x00#8)

/-- R171. -/
def execSar (d amt : Operand) (s : State) : Result State :=
  ifAdmissible (.sar d amt) s
    (andThen (shiftAmount s amt) fun n =>
      modifyDest s d (fun x => sarValue x n) fun x => sarFlags s.flags (sarValue x n) n)

/-- R172. -/
def execShl (d amt : Operand) (s : State) : Result State :=
  ifAdmissible (.shl d amt) s
    (andThen (shiftAmount s amt) fun n =>
      modifyDest s d (fun x => shlValue x n) fun x => shlFlags s.env.shlOf s.flags x (shlValue x n) n)

/-- R173. -/
def execShr (d amt : Operand) (s : State) : Result State :=
  ifAdmissible (.shr d amt) s
    (andThen (shiftAmount s amt) fun n =>
      modifyDest s d (fun x => shrValue x n) fun x => shrFlags s.flags x (shrValue x n) n)

/-- R174: the whole word is read and written (R65); no flag is written. -/
def execSetb (d : Operand) (cc : CC) (s : State) : Result State :=
  ifAdmissible (.setb d cc) s (modifyDest s d (fun x => setbValue x (s.flags.cond cc)) fun _ => s.flags)

end Sys2Proof.Machine
end

