-- ==== Sys2Proof/Machine/Control.lean ====
section
/-! DEFINITION. Cmp, Jmp, Call, Ret, J (spec/44_control_flow.md rules R210 to R216). No jump checks its target (R27). -/

namespace Sys2Proof.Machine

/-- R210: the flags of Sub, nothing else. -/
def execCmp (a b : Operand) (s : State) : Result State :=
  ifAdmissible (.cmp a b) s
    (andThen (val s a) fun x =>
      andThen (val s b) fun v => .next (s.withFlags (subFlags x v (subValue x v))).advance)

/-- R211. -/
def execJmp (src : Operand) (s : State) : Result State :=
  ifAdmissible (.jmp src) s (andThen (val s src) fun t => .next (s.jump t))

/-- R212, R194: push `npc`, jump. Under `sequential` the target is evaluated after the push; its read is checked before the
push is (R244). -/
def execCall (src : Operand) (s : State) : Result State :=
  ifAdmissible (.call src) s
    (match espPolicy s src with
    | .fault => raise (.espOperand (.call src))
    | .sequential =>
      andThen (val (s.setReg .esp s.pushAddr) src) fun _ =>
        andThen (s.pushWord s.npc) fun u => andThen (val u src) fun t => .next (u.jump t)
    | .before => andThen (val s src) fun t => andThen (s.pushWord s.npc) fun u => .next (u.jump t))

/-- R213. -/
def execRet (s : State) : Result State :=
  ifAdmissible .ret s (andThen (s.memRead (s.getReg .esp)) fun t => .next (s.popped.jump t))

/-- R214. -/
def execJ (cc : CC) (target : Label) (s : State) : Result State :=
  ifAdmissible (.j cc target) s
    (.next (if s.flags.cond cc then s.jump (s.env.labelAddr target) else s.advance))

end Sys2Proof.Machine
end

