-- ==== Sys2Proof/Machine/DataMove.lean ====
section
/-! DEFINITION. Lea, Mov, Push, Pop (spec/43_data_movement.md rules R189 to R194). None writes a flag. -/

namespace Sys2Proof.Machine

/-- R190: no memory is accessed. -/
def execLea (d : Reg) (src : Ind) (s : State) : Result State :=
  ifAdmissible (.lea d src) s (.next (s.setReg d (ea s src)).advance)

/-- R191: DEST is written and not read. -/
def execMov (d src : Operand) (s : State) : Result State :=
  ifAdmissible (.mov d src) s
    (andThen (val s src) fun v => andThen (store s d v) fun t => .next t.advance)

/-- R192, R194. Under `sequential` the operand is evaluated with ESP already moved. -/
def execPush (src : Operand) (s : State) : Result State :=
  ifAdmissible (.push src) s
    (match espPolicy s src with
    | .fault => raise (.espOperand (.push src))
    | .sequential =>
      andThen (val (s.setReg .esp s.pushAddr) src) fun v => andThen (s.pushWord v) fun t => .next t.advance
    | .before => andThen (val s src) fun v => andThen (s.pushWord v) fun t => .next t.advance)

/-- R193, R194. Under `sequential` DEST is located and written before ESP moves; under `before`, after. -/
def execPop (d : Operand) (s : State) : Result State :=
  ifAdmissible (.pop d) s
    (match espPolicy s d with
    | .fault => raise (.espOperand (.pop d))
    | .sequential =>
      andThen (s.memRead (s.getReg .esp)) fun v => andThen (store s d v) fun t => .next t.popped.advance
    | .before =>
      andThen (s.memRead (s.getReg .esp)) fun v => andThen (store s.popped d v) fun t => .next t.advance)

end Sys2Proof.Machine
end

