-- ==== Sys2Proof/Machine/Logic.lean ====
section
/-! DEFINITION. Not, And, Or, Xor (spec/41_logic.md rules R150 to R154). -/

namespace Sys2Proof.Machine

/-- R151: no flag is written. -/
def execNot (d : Operand) (s : State) : Result State :=
  ifAdmissible (.not d) s (modifyDest s d (fun x => ~~~x) fun _ => s.flags)

/-- R152. -/
def execAnd (d src : Operand) (s : State) : Result State :=
  ifAdmissible (.and d src) s
    (andThen (val s src) fun v => modifyDest s d (fun x => x &&& v) fun x => logicFlags (x &&& v))

/-- R153. -/
def execOr (d src : Operand) (s : State) : Result State :=
  ifAdmissible (.or d src) s
    (andThen (val s src) fun v => modifyDest s d (fun x => x ||| v) fun x => logicFlags (x ||| v))

/-- R154. -/
def execXor (d src : Operand) (s : State) : Result State :=
  ifAdmissible (.xor d src) s
    (andThen (val s src) fun v => modifyDest s d (fun x => x ^^^ v) fun x => logicFlags (x ^^^ v))

end Sys2Proof.Machine
end

