-- ==== Sys2Proof/Machine/Dispatch.lean ====
section
/-! DEFINITION. One arm per instruction of spec/opcode_table.json, each a direct call of its meaning. -/

namespace Sys2Proof.Machine

def exec (i : Instr) (s : State) : Host.Outcome State Fault Refusal :=
  match i with
  | .neg d => Sys2Proof.Machine.execNeg d s
  | .add d src => Sys2Proof.Machine.execAdd d src s
  | .sub d src => Sys2Proof.Machine.execSub d src s
  | .imul d src => Sys2Proof.Machine.execImul d src s
  | .not d => Sys2Proof.Machine.execNot d s
  | .and d src => Sys2Proof.Machine.execAnd d src s
  | .or d src => Sys2Proof.Machine.execOr d src s
  | .xor d src => Sys2Proof.Machine.execXor d src s
  | .sar d amt => Sys2Proof.Machine.execSar d amt s
  | .shl d amt => Sys2Proof.Machine.execShl d amt s
  | .shr d amt => Sys2Proof.Machine.execShr d amt s
  | .setb d cc => Sys2Proof.Machine.execSetb d cc s
  | .lea d src => Sys2Proof.Machine.execLea d src s
  | .mov d src => Sys2Proof.Machine.execMov d src s
  | .push src => Sys2Proof.Machine.execPush src s
  | .pop d => Sys2Proof.Machine.execPop d s
  | .cmp a b => Sys2Proof.Machine.execCmp a b s
  | .jmp src => Sys2Proof.Machine.execJmp src s
  | .call src => Sys2Proof.Machine.execCall src s
  | .ret => Sys2Proof.Machine.execRet s
  | .j cc target => Sys2Proof.Machine.execJ cc target s

end Sys2Proof.Machine
end

