-- ==== Sys2Proof/Machine/Step.lean ====
section
/-! DEFINITION. One step of the machine (spec/10_state.md rule R26): fetch, then execute. -/

namespace Sys2Proof.Machine

/-- The instruction cycle (R26). Nothing happens between two instructions (R243). -/
def step (s : State) : Host.Outcome State Fault Refusal := andThen s.fetch fun i => exec i s

/-- `s` with the instruction of an opcode-table row placed where `step` fetches next. No bit pattern names an instruction
(R90), so there is nothing to place; a program is loaded from outside the machine (R271, `Launch.start`). Log entry 2. -/
def State.withFetchWord (s : State) (nbits w : Nat) : State :=
  match decodeTableWord nbits w with
  | none => s
  | some i => s.withInstr i

end Sys2Proof.Machine
end

