-- ==== Sys2Proof/Machine/Launch.lean ====
section
/-! DEFINITION. The launch protocol (spec/70_reset_and_hazards.md rules R270 to R273): the loader checks the parameters and
builds the first state. It is no step of the machine. -/

namespace Sys2Proof.Machine

/-- The parameters of a launch (R7, R271). The program is given as terms: the loader is what meets an ill-formed one (R108). -/
structure Launch where
  /-- `Prog`, before the loader has decoded it. -/
  text : List (Word × Term)
  ilen : Nat
  lbl : List (Label × Word)
  entry : Word
  stackTop : Word
  exitAddr : Word
  /-- `Mem0`: the words the loader places; elsewhere memory holds what `unlistedByte` says (log entry 4). -/
  mem0 : List (Word × Word)
  /-- `Reg0`; its ESP is not used. -/
  reg0 : RegFile
  /-- `Flags0`. -/
  flags0 : Flags
  codeExtent : CodeExtent
  dataWindows : Option (List Window)
  shiftAmt : ShiftAmtPolicy
  espOperand : EspOperandPolicy
  shlOf : ShlOfPolicy
  deriving DecidableEq, Repr

/-- Why a launch is refused: no run exists (R271, R255). -/
inductive LaunchError where
  /-- Check 1: a term at this address is no instruction (R108). -/
  | notInstr (a : Word) (why : DecodeError)
  /-- Check 1: the instruction at this address uses a label outside the domain of `lbl`. -/
  | unresolved (a : Word) (l : Label)
  /-- Check 2: `ILEN` is not a positive multiple of 4. -/
  | ilen
  /-- Check 2: an instruction's address is not divisible by 4. -/
  | textMisaligned (a : Word)
  /-- Check 2: two instructions overlap. -/
  | overlap
  /-- Check 3: `ENTRY` is not in `dom(Prog)`. -/
  | entry
  /-- Check 4: `STACK_TOP` is not divisible by 4, or `DataValid(STACK_TOP - 4)` fails. -/
  | stack
  /-- Check 5: `EXIT_ADDR` is not divisible by 4, or is in `dom(Prog)`. -/
  | exit
  /-- `Mem0` places a word at an address not divisible by 4, which is no memory word (R61). -/
  | dataMisaligned (a : Word)
  deriving DecidableEq, Repr

/-- Decode the program text, address by address (check 1). -/
def decodeText : List (Word × Term) → Except LaunchError (List (Word × Instr))
  | [] => .ok []
  | (a, t) :: rest =>
    match decode t with
    | .error why => .error (.notInstr a why)
    | .ok i =>
      match decodeText rest with
      | .error e => .error e
      | .ok is => .ok ((a, i) :: is)

/-- The first instruction that uses an unresolved label (check 1). -/
def Env.firstUnresolved (e : Env) : List (Word × Instr) → Option LaunchError
  | [] => none
  | (a, i) :: rest =>
    match e.unresolved i.labels with
    | some l => some (.unresolved a l)
    | none => e.firstUnresolved rest

/-- Two slots of `n` bytes share no byte, addresses modulo 2^32 (check 2). -/
def disjointSlots (n : Nat) (a b : Word) : Bool := decide (n ≤ (a - b).toNat) && decide (n ≤ (b - a).toNat)

/-- No two instructions overlap (check 2). -/
def noOverlap (n : Nat) : List (Word × Instr) → Bool
  | [] => true
  | (a, _) :: rest => rest.all (fun p => disjointSlots n a p.1) && noOverlap n rest

/-- Store the words of `Mem0`, in order. -/
def loadWords (m : Memory) : List (Word × Word) → Memory
  | [] => m
  | (a, v) :: rest => loadWords (m.writeWord a.toNat v) rest

/-- The parameters a step reads, once the text is decoded. -/
def Launch.env (l : Launch) (prog : List (Word × Instr)) : Env where
  prog := prog
  ilen := l.ilen
  lbl := l.lbl
  exitAddr := l.exitAddr
  codeExtent := l.codeExtent
  dataWindows := l.dataWindows
  shiftAmt := l.shiftAmt
  espOperand := l.espOperand
  shlOf := l.shlOf

/-- Checks 1 to 5 of R271 on a decoded text, in order, and that `Mem0` is a map of memory words; the first that fails. -/
def Launch.failedCheck (l : Launch) (prog : List (Word × Instr)) : Option LaunchError :=
  let e := l.env prog
  match e.firstUnresolved prog with
  | some err => some err
  | none =>
    if l.ilen = 0 || l.ilen % 4 != 0 then some .ilen
    else
      match prog.find? (fun p => !aligned p.1) with
      | some p => some (.textMisaligned p.1)
      | none =>
        if !noOverlap l.ilen prog then some .overlap
        else if (e.instrAt l.entry).isNone then some .entry
        else if !(aligned l.stackTop && e.dataValid (l.stackTop - 4)) then some .stack
        else if !(aligned l.exitAddr && (e.instrAt l.exitAddr).isNone) then some .exit
        else
          match l.mem0.find? (fun p => !aligned p.1) with
          | some p => some (.dataMisaligned p.1)
          | none => none

/-- The first state (R271). -/
def Launch.firstState (l : Launch) (prog : List (Word × Instr)) : State where
  regs := l.reg0.set .esp (l.stackTop - 4)
  pc := l.entry
  flags := l.flags0
  mem := (loadWords [] l.mem0).writeWord (l.stackTop - 4).toNat l.exitAddr
  draws := 0
  env := l.env prog

/-- The loader (R271): decode, check, build. -/
def Launch.start (l : Launch) : Except LaunchError State :=
  match decodeText l.text with
  | .error e => .error e
  | .ok prog =>
    match l.failedCheck prog with
    | some e => .error e
    | none => .ok (l.firstState prog)

end Sys2Proof.Machine
end

