-- ==== Sys2Proof/Safety.lean ====
section
/-! DEFINITION. The terms claims are made in: places, what an instruction may leave changed, when an instruction is one the
loader admits, and what makes a state, a step and a run safe. -/

namespace Sys2Proof.Machine

/-- A location (R97): a register or a memory word. -/
inductive Place where
  | reg (r : Reg)
  | word (a : Word)
  deriving DecidableEq, Repr

/-- The place an operand denotes (R97); immediates and labels denote none. -/
def placeOf (s : State) : Operand → Option Place
  | .reg r => some (.reg r)
  | .ind i => some (.word (ea s i))
  | .imm _ => none
  | .lbl _ => none

/-- What a place holds. -/
def State.content (s : State) : Place → Word
  | .reg r => s.getReg r
  | .word a => s.mem.readWord a.toNat

/-- The fault that an access through the operand meets, if any (R63): only an Ind can meet one (R96, R97). -/
def operandFault (s : State) : Operand → Option Fault
  | .ind i => s.env.accessFault (ea s i)
  | .imm _ => none
  | .lbl _ => none
  | .reg _ => none

/-- The loader admits the instruction: it is well-formed and its labels are resolved (R108). -/
abbrev Admissible (i : Instr) (s : State) : Prop := i.WellFormed ∧ s.env.unresolved i.labels = none

/-- Byte address `x` belongs to the word at `a`. -/
abbrev InWord (a : Word) (x : Nat) : Prop := a.toNat ≤ x ∧ x < a.toNat + 4

/-- From `s` to `t` nothing changed but, at most, the places listed: every other register, every other byte of memory, and
the launch's parameters are as before. Flags, EIP and the count of draws are not spoken of. -/
def OnlyWrites (s t : State) (ps : List Place) : Prop :=
  (∀ r, Place.reg r ∉ ps → t.getReg r = s.getReg r) ∧
  (∀ x : Nat, (∀ a, Place.word a ∈ ps → ¬ InWord a x) → t.mem.readByte x = s.mem.readByte x) ∧
  t.env = s.env

/-- A final state (R274). -/
abbrev State.Final (s : State) : Prop := s.pc = s.env.exitAddr

/-- What the loader's checks 1, 2 and 5 leave true of the parameters for the whole run (R271). -/
abbrev Env.Sound (e : Env) : Prop :=
  (∀ p ∈ e.prog, p.2.WellFormed ∧ e.unresolved p.2.labels = none ∧ aligned p.1 = true) ∧
  e.ilen ≠ 0 ∧ e.ilen % 4 = 0 ∧ noOverlap e.ilen e.prog = true ∧
  aligned e.exitAddr = true ∧ e.instrAt e.exitAddr = none

/-- The invariant of a launched machine: canonical memory and sound parameters. -/
abbrev State.Inv (s : State) : Prop := s.mem.wf = true ∧ s.env.Sound

/-- The step is safe: it answers a next state. -/
def SafeStep (s : State) : Prop := ∃ t, step s = .next t

/-- `t` is reached from `s` by some number of steps. -/
inductive Reaches (s : State) : State → Prop where
  | here : Reaches s s
  | next {t u : State} : Reaches s t → step t = .next u → Reaches s u

/-- A run from `s` is safe: every state it reaches steps or is final, so it records no fault (R245, R255). -/
def SafeRun (s : State) : Prop := ∀ t, Reaches s t → t.Final ∨ SafeStep t

end Sys2Proof.Machine
end

