-- ==== Sys2Proof/Certificates/Slice0/Obligations.lean ====
section
/-! DEFINITION. The statements for the provers, one per numbered rule or group of rules of spec/, and the few shapes they are
written in. Nothing is proved here. -/

namespace Sys2Proof.Claims

open Sys2Proof Sys2Proof.Machine

/-- SF and ZF "set as usual" on the result (R31). -/
def AsUsual (f : Flags) (r : Word) : Prop := (f.SF = true ↔ r.msb = true) ∧ (f.ZF = true ↔ r = 0)

/-- The instruction answers a next state in which the place of `d` holds `value` of what it held, the flags are as `flags`
says of what it held and the new flags, EIP falls through, no free bit is drawn, and nothing else changes. -/
def Updates (i : Instr) (s : State) (d : Operand) (value : Word → Word → Prop) (flags : Word → Word → Flags → Prop) : Prop :=
  ∃ p t, placeOf s d = some p ∧ exec i s = .next t ∧
    value (s.content p) (t.content p) ∧ flags (s.content p) (t.content p) t.flags ∧
    t.pc = s.npc ∧ t.draws = s.draws ∧ OnlyWrites s t [p]

/-- The flags of Sub and Cmp (R134, R210) for DEST `a`, SRC `v` and the difference `r`: with `sn` the sign of the exact
-S64, OF says (sign of `a` is `sn` and sign of `r` is not) or SRC is MIN_INT. -/
def SubFlagRule (a v r : Word) (f : Flags) : Prop :=
  let sn := decide (0 - v.toInt < 0)
  (f.OF = true ↔ (a.msb = sn ∧ r.msb ≠ sn) ∨ v = 0x80000000#32) ∧ AsUsual f r

/-- A location (R97, R103). -/
def Location (o : Operand) : Prop := (∃ r, o = .reg r) ∨ ∃ i, o = .ind i

/-- Two memory operands (R101). -/
def BothMemory (a b : Operand) : Prop := (∃ i, a = .ind i) ∧ ∃ j, b = .ind j

/-- A shift amount (R102). -/
def Amount (a : Operand) : Prop := (∃ n, a = .imm n) ∨ a = .reg .ecx

/-- The index component is not ESP (R100). -/
def IndexNotEsp (i : Ind) : Prop := ∀ k, i.index ≠ some (.esp, k)

/-- If the operand is an Ind, it is as `ok` says. -/
def IfInd (ok : Ind → Prop) (o : Operand) : Prop := ∀ i, o = .ind i → ok i

/-- The restrictions of R104 on an instruction's operands, format by format, with `ok` for what is asked of every Ind. The
positions typed `reg`, `ind`, `cc` and `Label` (R105, R106) need none. -/
def MeetsFormat (ok : Ind → Prop) : Instr → Prop
  | .neg d | .not d | .pop d | .setb d _ => Location d ∧ IfInd ok d
  | .push s | .jmp s | .call s | .imul _ s => IfInd ok s
  | .add d s | .sub d s | .and d s | .or d s | .xor d s | .mov d s =>
    Location d ∧ ¬ BothMemory d s ∧ IfInd ok d ∧ IfInd ok s
  | .sar d a | .shl d a | .shr d a => Location d ∧ Amount a ∧ IfInd ok d
  | .lea _ i => ok i
  | .cmp a b => ¬ BothMemory a b ∧ IfInd ok a ∧ IfInd ok b
  | .ret | .j _ _ => True

/-- The terms of the ten formats of R104, row by row, with the restrictions of the table and R100. -/
def TermMeetsFormat (t : Term) : Prop :=
  t = ⟨"Ret", []⟩ ∨
  (∃ n d, n ∈ ["Neg", "Not", "Pop"] ∧ t = ⟨n, [.opnd d]⟩ ∧ Location d ∧ IfInd IndexNotEsp d) ∨
  (∃ n s, n ∈ ["Push", "Jmp", "Call"] ∧ t = ⟨n, [.opnd s]⟩ ∧ IfInd IndexNotEsp s) ∨
  (∃ n d s, n ∈ ["Add", "Sub", "And", "Or", "Xor", "Mov"] ∧ t = ⟨n, [.opnd d, .opnd s]⟩ ∧
    Location d ∧ ¬ BothMemory d s ∧ IfInd IndexNotEsp d ∧ IfInd IndexNotEsp s) ∨
  (∃ r s, t = ⟨"Imul", [.reg r, .opnd s]⟩ ∧ IfInd IndexNotEsp s) ∨
  (∃ n d a, n ∈ ["Sar", "Shl", "Shr"] ∧ t = ⟨n, [.opnd d, .opnd a]⟩ ∧ Location d ∧ Amount a ∧ IfInd IndexNotEsp d) ∨
  (∃ d c, t = ⟨"Setb", [.opnd d, .cc c]⟩ ∧ Location d ∧ IfInd IndexNotEsp d) ∨
  (∃ r i, t = ⟨"Lea", [.reg r, .ind i]⟩ ∧ IndexNotEsp i) ∨
  (∃ a b, t = ⟨"Cmp", [.opnd a, .opnd b]⟩ ∧ ¬ BothMemory a b ∧ IfInd IndexNotEsp a ∧ IfInd IndexNotEsp b) ∨
  (∃ c l, t = ⟨"J", [.cc c, .label l]⟩)

/-- The words that hold no data because instructions stand there: under `slots` every word of the instructions' slots (R67),
addresses modulo 2^32; under `starts` the addresses of `dom(Prog)` (R7, D9). -/
def CodeWord (e : Env) (a : Word) : Prop :=
  match e.codeExtent with
  | .slots => ∃ p ∈ e.prog, ∃ k, 4 * k < e.ilen ∧ a = p.1 + BitVec.ofNat 32 (4 * k)
  | .starts => ∃ p ∈ e.prog, a = p.1

/-- The three shifts. -/
def IsShift (i : Instr) (d a : Operand) : Prop := i = .sar d a ∨ i = .shl d a ∨ i = .shr d a

/-- The instructions that never write a flag (R29). -/
def keepsFlags : Instr → Bool
  | .not _ | .setb _ _ | .lea _ _ | .mov _ _ | .push _ | .pop _ | .jmp _ | .call _ | .ret | .j _ _ => true
  | .neg _ | .add _ _ | .sub _ _ | .imul _ _ | .and _ _ | .or _ _ | .xor _ _ => false
  | .sar _ _ | .shl _ _ | .shr _ _ | .cmp _ _ => false

/-- The instructions that may set EIP to something other than the next instruction (R24). -/
def isTransfer : Instr → Bool
  | .jmp _ | .call _ | .ret | .j _ _ => true
  | .neg _ | .add _ _ | .sub _ _ | .imul _ _ | .not _ | .and _ _ | .or _ _ | .xor _ _ => false
  | .sar _ _ | .shl _ _ | .shr _ _ | .setb _ _ | .lea _ _ | .mov _ _ | .push _ | .pop _ | .cmp _ _ => false

/-- The register a location is. -/
def locRegs : Operand → List Reg
  | .reg r => [r]
  | .imm _ | .lbl _ | .ind _ => []

/-- The registers an instruction may write: its destination, and ESP for the four stack instructions (R189). -/
def writtenRegs : Instr → List Reg
  | .neg d | .not d | .setb d _ => locRegs d
  | .add d _ | .sub d _ | .and d _ | .or d _ | .xor d _ | .mov d _ => locRegs d
  | .sar d _ | .shl d _ | .shr d _ => locRegs d
  | .imul r _ | .lea r _ => [r]
  | .pop d => .esp :: locRegs d
  | .push _ | .call _ | .ret => [.esp]
  | .cmp _ _ | .jmp _ | .j _ _ => []

/-- The word a location is, its address taken in `s`. -/
def locWord (s : State) : Operand → Option Word
  | .ind i => some (ea s i)
  | .imm _ | .lbl _ | .reg _ => none

/-- The address of the word an instruction stores to, if its form stores at all (R62). Pop's memory DEST is addressed after
ESP has moved unless the policy is `sequential` (R194); that matters only where its base is ESP. -/
def storedWord (s : State) : Instr → Option Word
  | .neg d | .not d | .setb d _ => locWord s d
  | .add d _ | .sub d _ | .and d _ | .or d _ | .xor d _ | .mov d _ => locWord s d
  | .sar d _ | .shl d _ | .shr d _ => locWord s d
  | .push _ | .call _ => some s.pushAddr
  | .pop d => locWord (if espPolicy s d = .sequential then s else s.popped) d
  | .imul _ _ | .lea _ _ | .cmp _ _ | .jmp _ | .ret | .j _ _ => none

/-- The forms that access data memory (R62, R242). -/
def accessesMemory : Instr → Bool
  | .neg d | .not d | .setb d _ => d.isMem
  | .add d s | .sub d s | .and d s | .or d s | .xor d s | .mov d s => d.isMem || s.isMem
  | .sar d _ | .shl d _ | .shr d _ => d.isMem
  | .imul _ s | .jmp s => s.isMem
  | .cmp a b => a.isMem || b.isMem
  | .push _ | .pop _ | .call _ | .ret => true
  | .lea _ _ | .j _ _ => false

/-- The operand of Push, Pop or Call. -/
def StackOperand (i : Instr) (o : Operand) : Prop := i = .push o ∨ i = .pop o ∨ i = .call o

/-- The cause R241 and R242 give each fault that `exec` may answer for `i` in `s`. -/
def FaultCause (i : Instr) (s : State) : Fault → Prop
  | .noInstruction _ => False
  | .espOperand j => j = i ∧ s.env.espOperand = .fault ∧ ∃ o, StackOperand i o ∧ dependsOnEsp o = true
  | .shiftAmount n => 31 < n ∧ s.env.shiftAmt = .fault ∧
      ∃ d a w, IsShift i d a ∧ val s a = .next w ∧ n = w.toNat
  | .misaligned a => a.toNat % 4 ≠ 0 ∧ accessesMemory i = true
  | .invalidAddress a => a.toNat % 4 = 0 ∧ s.env.dataValid a = false ∧ accessesMemory i = true

/-- The state with a narrowed `DataValid` (R69). -/
def narrow (ws : List Window) (s : State) : State := { s with env := { s.env with dataWindows := some ws } }

/-- The five checks of a launch (R271) on the decoded text, and that `Mem0` maps memory words only (R61). -/
def LaunchChecks (l : Launch) (prog : List (Word × Instr)) : Prop :=
  List.Forall₂ (fun p q => q.1 = p.1 ∧ decode p.2 = .ok q.2) l.text prog ∧
  (∀ p ∈ prog, ∀ lb ∈ p.2.labels, ∃ a, lookup lb l.lbl = some a) ∧
  (∀ p ∈ prog, p.1.toNat % 4 = 0) ∧ (l.ilen ≠ 0 ∧ l.ilen % 4 = 0) ∧
  List.Pairwise (fun p q => l.ilen ≤ (p.1 - q.1).toNat ∧ l.ilen ≤ (q.1 - p.1).toNat) prog ∧
  (∃ i, lookup l.entry prog = some i) ∧
  (l.stackTop.toNat % 4 = 0 ∧ (l.env prog).dataValid (l.stackTop - 4) = true) ∧
  (l.exitAddr.toNat % 4 = 0 ∧ lookup l.exitAddr prog = none) ∧
  (∀ p ∈ l.mem0, p.1.toNat % 4 = 0)

/-- The common launch of spec/95_test_vectors.md section 3 with the one-instruction program `t`. -/
def commonLaunch (t : Term) : Launch where
  text := [(0x00001000#32, t)]
  ilen := 4
  lbl := []
  entry := 0x00001000#32
  stackTop := 0x00100000#32
  exitAddr := 0xfffffff0#32
  mem0 := []
  reg0 :=
    { eax := 0xdead0000#32, ebx := 0xdead0001#32, ecx := 0xdead0002#32, edx := 0xdead0003#32,
      esi := 0xdead0004#32, edi := 0xdead0005#32, ebp := 0xdead0006#32, esp := 0#32 }
  flags0 := { OF := false, SF := false, ZF := false }
  codeExtent := .slots
  dataWindows := none
  shiftAmt := .fault
  espOperand := .fault
  shlOf := .literal

/-- The state in which Push evaluates an operand that depends on ESP: `sequential` moves ESP first (R194). -/
def pushEval (s : State) : State :=
  match s.env.espOperand with
  | .sequential => s.setReg .esp (s.getReg .esp - 4)
  | .before => s
  | .fault => s

/-- The state in which Call evaluates an operand that depends on ESP: `sequential` has pushed the return address (R194). -/
def callEval (s : State) : State :=
  match s.env.espOperand with
  | .sequential => (s.withMem (s.mem.writeWord (s.getReg .esp - 4).toNat s.npc)).setReg .esp (s.getReg .esp - 4)
  | .before => s
  | .fault => s

/-- The address of an Ind destination of Pop that depends on ESP: `sequential` takes it before ESP moves (R194). -/
def popTarget (s : State) (i : Ind) : Word :=
  match s.env.espOperand with
  | .sequential => ea s i
  | .before => ea (s.setReg .esp (s.getReg .esp + 4)) i
  | .fault => ea s i

/-- R194 for Push. -/
def PushOnEsp : Prop :=
  ∀ (src : Operand) (s : State), Admissible (.push src) s → dependsOnEsp src = true → s.mem.wf = true →
    (s.env.espOperand = .fault → exec (.push src) s = .fault (.espOperand (.push src))) ∧
    (s.env.espOperand ≠ .fault →
      (∀ v, val (pushEval s) src = .next v → s.env.accessFault (s.getReg .esp - 4) = none →
        ∃ t, exec (.push src) s = .next t ∧ t.getReg .esp = s.getReg .esp - 4 ∧
          t.mem.readWord (s.getReg .esp - 4).toNat = v ∧ t.flags = s.flags ∧ t.pc = s.npc ∧ t.draws = s.draws ∧
          OnlyWrites s t [.reg .esp, .word (s.getReg .esp - 4)]) ∧
      (∀ f, operandFault (pushEval s) src = some f → exec (.push src) s = .fault f) ∧
      (∀ f, operandFault (pushEval s) src = none → s.env.accessFault (s.getReg .esp - 4) = some f →
        exec (.push src) s = .fault f))

/-- R194 for Pop. -/
def PopOnEsp : Prop :=
  ∀ (d : Operand) (s : State), Admissible (.pop d) s → dependsOnEsp d = true → s.mem.wf = true →
    (s.env.espOperand = .fault → exec (.pop d) s = .fault (.espOperand (.pop d))) ∧
    (s.env.espOperand ≠ .fault →
      (∀ f, s.memRead (s.getReg .esp) = .fault f → exec (.pop d) s = .fault f) ∧
      (∀ v, s.memRead (s.getReg .esp) = .next v →
        (d = .reg .esp →
          ∃ t, exec (.pop d) s = .next t ∧
            t.getReg .esp = (if s.env.espOperand = .sequential then v + 4 else v) ∧
            t.flags = s.flags ∧ t.pc = s.npc ∧ t.draws = s.draws ∧ OnlyWrites s t [.reg .esp]) ∧
        (∀ i, d = .ind i → s.env.accessFault (popTarget s i) = none →
          ∃ t, exec (.pop d) s = .next t ∧ t.mem.readWord (popTarget s i).toNat = v ∧
            t.getReg .esp = s.getReg .esp + 4 ∧ t.flags = s.flags ∧ t.pc = s.npc ∧ t.draws = s.draws ∧
            OnlyWrites s t [.reg .esp, .word (popTarget s i)]) ∧
        (∀ i f, d = .ind i → s.env.accessFault (popTarget s i) = some f → exec (.pop d) s = .fault f)))

/-- R194 for Call. -/
def CallOnEsp : Prop :=
  ∀ (src : Operand) (s : State), Admissible (.call src) s → dependsOnEsp src = true → s.mem.wf = true →
    (s.env.espOperand = .fault → exec (.call src) s = .fault (.espOperand (.call src))) ∧
    (s.env.espOperand ≠ .fault →
      (∀ w, val (callEval s) src = .next w → s.env.accessFault (s.getReg .esp - 4) = none →
        ∃ t, exec (.call src) s = .next t ∧ t.pc = w ∧ t.getReg .esp = s.getReg .esp - 4 ∧
          t.mem.readWord (s.getReg .esp - 4).toNat = s.npc ∧ t.flags = s.flags ∧ t.draws = s.draws ∧
          OnlyWrites s t [.reg .esp, .word (s.getReg .esp - 4)]) ∧
      (∀ f, operandFault (callEval s) src = some f → exec (.call src) s = .fault f) ∧
      (∀ f, operandFault (callEval s) src = none → s.env.accessFault (s.getReg .esp - 4) = some f →
        exec (.call src) s = .fault f))

end Sys2Proof.Claims

open Sys2Proof Sys2Proof.Machine Sys2Proof.Claims

/-! ### Terms and instructions -/

/-- Decode and encode agree on every well-formed instruction (R90: decoding is the identity; R91, R104, R110). -/
def Obligations.DecodeEncodeRoundTrip : Prop := ∀ i : Instr, i.WellFormed → decode (encode i) = .ok i

/-- A term the decoder accepts is the term of the instruction it answers, and that instruction is well-formed (R108). -/
def Obligations.DecodeAcceptsOnlyEncodings : Prop :=
  ∀ (t : Term) (i : Instr), decode t = .ok i → encode i = t ∧ i.WellFormed

/-- Terms written out in the notation of R111, one per family, decode to what they stand for. -/
def Obligations.WrittenTermsDecode : Prop :=
  decode ⟨"Imul", [.reg .eax, .opnd (.reg .ebx)]⟩ = .ok (.imul .eax (.reg .ebx)) ∧
  decode ⟨"Xor", [.opnd (.reg .eax), .opnd (.reg .edx)]⟩ = .ok (.xor (.reg .eax) (.reg .edx)) ∧
  decode ⟨"Shr", [.opnd (.reg .ebx), .opnd (.reg .ecx)]⟩ = .ok (.shr (.reg .ebx) (.reg .ecx)) ∧
  decode ⟨"Lea", [.reg .ebx, .ind ⟨some .eax, some (.eax, 2), some (.imm 1)⟩]⟩ =
    .ok (.lea .ebx ⟨some .eax, some (.eax, 2), some (.imm 1)⟩) ∧
  decode ⟨"J", [.cc .eq, .label ⟨"done"⟩]⟩ = .ok (.j .eq ⟨"done"⟩)

/-- The static rules, each refused by its own name (R100 to R103, R105, R106, R108): two memory operands; ESP as an index,
which is refused in any operand of any term, and by its own name where no other restriction of the format is broken; a shift
amount other than an immediate or ECX; a destination that is no location; a second operand of Lea that is no Ind; a first
operand of Lea or Imul that is no bare register; a target of J that is no label; a name that is no instruction (R91, R110).
That refusing is the decoder's work is log entry 2; which reason is reported where several apply is the model's choice, log
entry 20. -/
def Obligations.IllFormedTermsRejected : Prop :=
  (∀ i j n, n ∈ ["Add", "Sub", "And", "Or", "Xor", "Mov", "Cmp"] →
    decode ⟨n, [.opnd (.ind i), .opnd (.ind j)]⟩ = .error (.illFormed .twoMemory)) ∧
  (∀ (t : Term) i k, i.index = some (.esp, k) → Arg.opnd (.ind i) ∈ t.args ∨ Arg.ind i ∈ t.args →
    ∃ e, decode t = .error e) ∧
  (∀ i : Instr, MeetsFormat (fun _ => True) i → ¬ MeetsFormat IndexNotEsp i →
    decode (encode i) = .error (.illFormed .indexEsp)) ∧
  (∀ d a n, n ∈ ["Sar", "Shl", "Shr"] → d.isLoc = true → (∀ w, a ≠ .imm w) → a ≠ .reg .ecx →
    decode ⟨n, [.opnd d, .opnd a]⟩ = .error (.illFormed .shiftAmountForm)) ∧
  (∀ d s n, n ∈ ["Add", "Sub", "And", "Or", "Xor", "Mov", "Sar", "Shl", "Shr"] → (∀ r, d ≠ .reg r) → (∀ i, d ≠ .ind i) →
    decode ⟨n, [.opnd d, .opnd s]⟩ = .error (.illFormed .destNotLocation)) ∧
  (∀ d n, n ∈ ["Neg", "Not", "Pop"] → (∀ r, d ≠ .reg r) → (∀ i, d ≠ .ind i) →
    decode ⟨n, [.opnd d]⟩ = .error (.illFormed .destNotLocation)) ∧
  (∀ d c, (∀ r, d ≠ .reg r) → (∀ i, d ≠ .ind i) →
    decode ⟨"Setb", [.opnd d, .cc c]⟩ = .error (.illFormed .destNotLocation)) ∧
  (∀ r o, decode ⟨"Lea", [.reg r, .opnd o]⟩ = .error (.operandKinds .lea)) ∧
  (∀ o a, decode ⟨"Lea", [.opnd o, a]⟩ = .error (.operandKinds .lea)) ∧
  (∀ o a, decode ⟨"Imul", [.opnd o, a]⟩ = .error (.operandKinds .imul)) ∧
  (∀ c o, decode ⟨"J", [.cc c, .opnd o]⟩ = .error (.operandKinds .j)) ∧
  (∀ n args, (∀ o : Opcode, o.name ≠ n) → decode ⟨n, args⟩ = .error (.unknownName n))

/-- The formats are exact (R100 to R106, R108): an instruction is well-formed exactly when its operands meet the restrictions of
its format, and the decoder accepts exactly the terms of the ten formats. Nothing else is asked: any scale, any immediate and
any label may stand where a value may. -/
def Obligations.FormatsAreExact : Prop :=
  (∀ i : Instr, i.WellFormed ↔ MeetsFormat IndexNotEsp i) ∧
  ∀ t : Term, (∃ i, decode t = .ok i) ↔ TermMeetsFormat t

/-- No rule gives an ill-formed instruction, or one with an unresolved label, a meaning (R108). That `exec` itself refuses one, by
name and ill-formedness before labels, is the model's choice of how to have none (log entry 9): R108 has the loader refuse the
program. -/
def Obligations.OnlyAdmissibleInstructionsExecute : Prop :=
  ∀ (i : Instr) (s : State),
    (∀ w, i.illFormed? = some w → exec i s = .refused (.illFormed w)) ∧
    (i.WellFormed → ∀ l, s.env.unresolved i.labels = some l → exec i s = .refused (.unresolvedLabel l)) ∧
    (∀ t, exec i s = .next t → i.WellFormed ∧ ∀ l ∈ i.labels, ∃ a, s.env.label? l = some a)

/-! ### The instruction cycle -/

/-- A step runs the decoded instruction: where the term at EIP decodes to `i`, and the program text holds `i` there, the step
is `exec i` (R25, R26); nothing is done around it. -/
def Obligations.StepRunsDecodedInstruction : Prop :=
  ∀ (s : State) (t : Term) (i : Instr), decode t = .ok i → s.env.instrAt s.pc = some i → s.pc ≠ s.env.exitAddr →
    step s = exec i s

/-- What the loader was given is what runs: in a machine launched from `l`, at an address where the text of `l` has the term
`t`, the step is that of the instruction `t` decodes to, which the loader has admitted (R25, R26, R90, R271). -/
def Obligations.LaunchedTextIsExecuted : Prop :=
  ∀ (l : Launch) (s₀ s : State) (t : Term), l.start = .ok s₀ → s.env = s₀.env → (s.pc, t) ∈ l.text →
    ∃ i, decode t = .ok i ∧ Admissible i s ∧ step s = exec i s

/-- The instruction cycle (R26): a final state takes no step, which the model answers with a refusal (log entry 8); an address
without an instruction faults; else the
instruction at EIP is executed, and unless it is a transfer EIP ends at `npc`, which is taken modulo 2^32; the value that
Call leaves on the stack is `npc`. -/
def Obligations.InstructionCycle : Prop :=
  ∀ s : State,
    (s.pc = s.env.exitAddr → step s = .refused .runEnded) ∧
    (s.pc ≠ s.env.exitAddr → lookup s.pc s.env.prog = none → step s = .fault (.noInstruction s.pc)) ∧
    (∀ i, s.pc ≠ s.env.exitAddr → lookup s.pc s.env.prog = some i →
      step s = exec i s ∧ (isTransfer i = false → ∀ t, step s = .next t → t.pc = s.npc)) ∧
    (∀ o t, s.mem.wf = true → lookup s.pc s.env.prog = some (.call o) → step s = .next t →
      t.mem.readWord (t.getReg .esp).toNat = s.npc) ∧
    s.npc.toNat = (s.pc.toNat + s.env.ilen) % 2 ^ 32

/-! ### Invariants -/

/-- Every step keeps the memory's canonical form and the soundness of the launch's parameters. -/
def Obligations.StepKeepsInvariant : Prop := ∀ s t : State, s.Inv → step s = .next t → t.Inv

/-- The invariant holds at reset. -/
def Obligations.ResetMeetsInvariant : Prop := State.reset.Inv

/-- Every launch the loader accepts starts in the invariant. -/
def Obligations.LaunchMeetsInvariant : Prop := ∀ (l : Launch) (s : State), l.start = .ok s → s.Inv

/-- No step changes the program text, the labels or any other parameter of the launch (R7, R20). -/
def Obligations.StepKeepsParameters : Prop := ∀ s t : State, step s = .next t → t.env = s.env

/-- No step writes a byte of a word where an instruction stands (R67, R74): of `dom(Prog)`, and of the rest of the slots where
the launch bars them (log entry 11). -/
def Obligations.StepNeverWritesCode : Prop :=
  ∀ (s t : State) (a : Word) (x : Nat), step s = .next t → a.toNat % 4 = 0 → s.env.inCode a = true → InWord a x →
    t.mem.readByte x = s.mem.readByte x

/-- A launched machine that has not ended either steps or faults: it is never refused (R255). -/
def Obligations.LaunchedMachineStepsOrFaults : Prop :=
  ∀ s : State, s.Inv → ¬ s.Final → (∃ t, step s = .next t) ∨ ∃ f, step s = .fault f

/-- A run (R71, R255): every state it reaches meets the invariant and has the launch's parameters; and a run is safe exactly
when none of its steps faults. -/
def Obligations.RunsOfALaunchedMachine : Prop :=
  ∀ s : State, s.Inv →
    (∀ t, Reaches s t → t.Inv ∧ t.env = s.env) ∧ (SafeRun s ↔ ∀ t f, Reaches s t → step t ≠ .fault f)

/-- Narrowing `DataValid` only adds faults (R69): what the narrowed machine does, the default machine does too. -/
def Obligations.NarrowingOnlyAddsFaults : Prop :=
  ∀ (s u : State) (ws : List Window), s.env.dataWindows = none → step (narrow ws s) = .next u →
    ∃ t, step s = .next t ∧ u = narrow ws t

/-! ### Launch and reset -/

/-- The launch protocol (R40, R271): the loader accepts exactly the launches that pass the checks; the first state is the
one the rule gives, for every `Reg0`, `Flags0` and `Mem0`. `Mem0` is the memory that holds the words listed. The model's
own: what it holds at a word that nothing lists (log entry 4), that `Mem0` names memory words only (log entry 12), and that
slots overlap modulo 2^32 (log entry 13). -/
def Obligations.LaunchProtocol : Prop :=
  ∀ l : Launch,
    ((∃ s, l.start = .ok s) ↔ ∃ prog, LaunchChecks l prog) ∧
    ∀ s, l.start = .ok s →
      (∃ prog, LaunchChecks l prog ∧ s.env = l.env prog) ∧
      s.pc = l.entry ∧ s.getReg .esp = l.stackTop - 4 ∧ (∀ r, r ≠ .esp → s.getReg r = l.reg0.get r) ∧
      s.flags = l.flags0 ∧ s.mem.readWord (l.stackTop - 4).toNat = l.exitAddr ∧
      (∀ a : Word, a.toNat % 4 = 0 → a ≠ l.stackTop - 4 →
        s.mem.readWord a.toNat = (loadWords [] l.mem0).readWord a.toNat) ∧
      ((l.mem0.map Prod.fst).Nodup → ∀ p ∈ l.mem0, (loadWords [] l.mem0).readWord p.1.toNat = p.2)

/-- Reset is the first state of the spec's common launch, with the program still to be placed: launching any one well-formed
instruction without labels there gives the reset state with that instruction at EIP. The values of the registers other than
ESP, of the flags and of ENTRY, STACK_TOP and EXIT_ADDR are the model's choice (log entries 6 and 7). -/
def Obligations.ResetIsCommonLaunch : Prop :=
  ∀ i : Instr, i.WellFormed → i.labels = [] → (commonLaunch (encode i)).start = .ok (State.reset.withInstr i)

/-! ### Registers, memory, operands, conditions -/

/-- `x[r] <- v` replaces all of `r` and nothing else (R21): no register is hardwired or an alias of another. -/
def Obligations.RegistersAreIndependent : Prop :=
  ∀ (s : State) (r q : Reg) (v : Word),
    (s.setReg r v).getReg r = v ∧ (q ≠ r → (s.setReg r v).getReg q = s.getReg q) ∧
    (s.setReg r v).mem = s.mem ∧ (s.setReg r v).flags = s.flags ∧ (s.setReg r v).pc = s.pc

/-- The effective address (R98), for all eight shapes of an Ind: the sum of the parts that are present, modulo 2^32, whether
they are read unsigned or signed. -/
def Obligations.EffectiveAddressFormula : Prop :=
  ∀ (s : State) (base : Option Reg) (index : Option (Reg × Word)) (disp : Option Disp),
    let b : Word := match base with
      | some r => s.getReg r
      | none => 0
    let x : Word × Word := match index with
      | some (r, k) => (s.getReg r, k)
      | none => (0, 0)
    let d : Word := match disp with
      | some (.imm n) => n
      | some (.lbl l) => s.env.labelAddr l
      | none => 0
    (ea s ⟨base, index, disp⟩).toNat = (b.toNat + x.1.toNat * x.2.toNat + d.toNat) % 2 ^ 32 ∧
    ea s ⟨base, index, disp⟩ = trunc32 (b.toInt + x.1.toInt * x.2.toInt + d.toInt)

/-- The value of each operand form (R96). -/
def Obligations.OperandValues : Prop :=
  ∀ s : State,
    (∀ n, val s (.imm n) = .next n) ∧
    (∀ l a, s.env.label? l = some a → val s (.lbl l) = .next a) ∧
    (∀ r, val s (.reg r) = .next (s.getReg r)) ∧
    (∀ i, val s (.ind i) = s.memRead (ea s i))

/-- The memory primitives (R63): the two checks in order; a read gives the word last written; a write changes its word only. -/
def Obligations.MemoryPrimitives : Prop :=
  ∀ (s : State) (a v : Word),
    (a.toNat % 4 ≠ 0 → s.memRead a = .fault (.misaligned a) ∧ s.memWrite a v = .fault (.misaligned a)) ∧
    (a.toNat % 4 = 0 → s.env.dataValid a = false →
      s.memRead a = .fault (.invalidAddress a) ∧ s.memWrite a v = .fault (.invalidAddress a)) ∧
    (a.toNat % 4 = 0 → s.env.dataValid a = true →
      s.memRead a = .next (s.mem.readWord a.toNat) ∧
      (s.mem.wf = true →
        ∃ t, s.memWrite a v = .next t ∧ t.memRead a = .next v ∧ (∀ b, b ≠ a → t.memRead b = s.memRead b) ∧
          OnlyWrites s t [.word a] ∧ t.flags = s.flags ∧ t.pc = s.pc))

/-- Code and data (R67, R69): fetch reads `Prog` and never memory, and `Prog` is fixed for the run; a word-aligned address is
valid for data exactly when it is no code word and, where the launch narrows `DataValid`, lies in one of its windows; an
access to a code word raises `InvalidAddress`. Which words are code words where `ILEN` is above 4 is a parameter, they are
taken modulo 2^32, and the windows are the form of a narrowing: log entry 11, the model's choice. Where `ILEN` is 4 they are
`dom(Prog)`, whatever the parameter. -/
def Obligations.CodeAndDataAreApart : Prop :=
  ∀ s : State, s.env.Sound →
    (∀ m, (s.withMem m).fetch = s.fetch) ∧ (∀ t, step s = .next t → t.env.prog = s.env.prog) ∧
    (∀ a : Word, a.toNat % 4 = 0 →
      (s.env.dataValid a = true ↔ ¬ CodeWord s.env a ∧
        ∀ ws, s.env.dataWindows = some ws → ∃ w ∈ ws, w.first.toNat ≤ a.toNat ∧ a.toNat ≤ w.last.toNat)) ∧
    (∀ a v : Word, CodeWord s.env a →
      s.memRead a = .fault (.invalidAddress a) ∧ s.memWrite a v = .fault (.invalidAddress a)) ∧
    (∀ p ∈ s.env.prog, CodeWord s.env p.1) ∧
    (s.env.ilen = 4 → ∀ a, CodeWord s.env a → ∃ p ∈ s.env.prog, a = p.1)

/-- `Cond(cc)` (R34, R35). -/
def Obligations.ConditionCodes : Prop :=
  ∀ f : Flags,
    (f.cond .eq = true ↔ f.ZF = true) ∧ (f.cond .zero = true ↔ f.ZF = true) ∧
    (f.cond .notEq = true ↔ f.ZF = false) ∧ (f.cond .notZero = true ↔ f.ZF = false) ∧
    (f.cond .slt = true ↔ f.SF ≠ f.OF) ∧ (f.cond .sge = true ↔ f.SF = f.OF) ∧
    (f.cond .sle = true ↔ f.SF ≠ f.OF ∨ f.ZF = true) ∧ (f.cond .sgt = true ↔ ¬ (f.SF ≠ f.OF ∨ f.ZF = true))

/-- What the condition codes mean after Cmp (R36): the signed order when SRC2 is not MIN_INT; when it is, equality still, and
Slt and Sle also hold for every negative SRC1. -/
def Obligations.ComparisonMeaning : Prop :=
  ∀ (o1 o2 : Operand) (s t : State) (a v : Word), val s o1 = .next a → val s o2 = .next v →
    exec (.cmp o1 o2) s = .next t →
    (t.flags.cond .eq = true ↔ a.toInt = v.toInt) ∧ (t.flags.cond .zero = true ↔ a.toInt = v.toInt) ∧
    (t.flags.cond .notEq = true ↔ a.toInt ≠ v.toInt) ∧ (t.flags.cond .notZero = true ↔ a.toInt ≠ v.toInt) ∧
    ((v ≠ 0x80000000#32 ∨ 0 ≤ a.toInt) →
      (t.flags.cond .slt = true ↔ a.toInt < v.toInt) ∧ (t.flags.cond .sle = true ↔ a.toInt ≤ v.toInt) ∧
      (t.flags.cond .sgt = true ↔ a.toInt > v.toInt) ∧ (t.flags.cond .sge = true ↔ a.toInt ≥ v.toInt)) ∧
    (v = 0x80000000#32 → a.toInt < 0 →
      t.flags.SF = false ∧ t.flags.OF = true ∧ t.flags.cond .slt = true ∧ t.flags.cond .sle = true)

/-! ### Arithmetic -/

/-- Neg (R132). -/
def Obligations.NegResult : Prop :=
  ∀ (d : Operand) (s : State), Admissible (.neg d) s → s.mem.wf = true →
    (operandFault s d = none →
      Updates (.neg d) s d (fun x r => r = trunc32 (0 - x.toInt))
        (fun x r f => (f.OF = true ↔ x = 0x80000000#32) ∧ AsUsual f r)) ∧
    (∀ f, operandFault s d = some f → exec (.neg d) s = .fault f)

/-- Add (R133). -/
def Obligations.AddResult : Prop :=
  ∀ (d src : Operand) (s : State), Admissible (.add d src) s → s.mem.wf = true →
    (∀ v, val s src = .next v → operandFault s d = none →
      Updates (.add d src) s d (fun x r => r = trunc32 (x.toInt + v.toInt))
        (fun x r f => (f.OF = true ↔ x.msb = v.msb ∧ r.msb ≠ v.msb) ∧ AsUsual f r)) ∧
    (∀ f, operandFault s src = some f ∨ operandFault s d = some f → exec (.add d src) s = .fault f)

/-- Sub (R134, conflicts C2 and C3). -/
def Obligations.SubResult : Prop :=
  ∀ (d src : Operand) (s : State), Admissible (.sub d src) s → s.mem.wf = true →
    (∀ v, val s src = .next v → operandFault s d = none →
      Updates (.sub d src) s d (fun x r => r = trunc32 (x.toInt + (0 - v.toInt))) (fun x r f => SubFlagRule x v r f)) ∧
    (∀ f, operandFault s src = some f ∨ operandFault s d = some f → exec (.sub d src) s = .fault f)

/-- Imul (R33, R135): OF is defined; SF and ZF are draws. That a draw is the next free bit of a counted sequence, about whose
bits nothing can be proved, is the model's form of it: log entry 1. -/
def Obligations.ImulResult : Prop :=
  ∀ (d : Reg) (src : Operand) (s : State), Admissible (.imul d src) s →
    (∀ v, val s src = .next v →
      ∃ t, exec (.imul d src) s = .next t ∧ t.getReg d = trunc32 ((s.getReg d).toInt * v.toInt) ∧
        (t.flags.OF = true ↔
          (s.getReg d).toInt * v.toInt < -2 ^ 31 ∨ (s.getReg d).toInt * v.toInt > 2 ^ 31 - 1) ∧
        t.flags.SF = Config.freeBit s.draws ∧ t.flags.ZF = Config.freeBit (s.draws + 1) ∧ t.draws = s.draws + 2 ∧
        t.pc = s.npc ∧ OnlyWrites s t [.reg d]) ∧
    (∀ f, operandFault s src = some f → exec (.imul d src) s = .fault f)

/-- The overflow flags of Add and Sub against the exact result (the equivalent forms of R133 and R134): OF is set exactly when
the exact sum does not fit in 32 bits; for Sub, when the exact difference does not fit or SRC is MIN_INT. -/
def Obligations.OverflowIsExact : Prop :=
  ∀ (d src : Operand) (s t : State) (x v : Word), val s d = .next x → val s src = .next v →
    (exec (.add d src) s = .next t →
      (t.flags.OF = true ↔ x.toInt + v.toInt < -2 ^ 31 ∨ x.toInt + v.toInt > 2 ^ 31 - 1)) ∧
    (exec (.sub d src) s = .next t →
      (t.flags.OF = true ↔ x.toInt - v.toInt < -2 ^ 31 ∨ x.toInt - v.toInt > 2 ^ 31 - 1 ∨ v = 0x80000000#32))

/-! ### Logic -/

/-- Not (R151): every bit inverted, no flag written. -/
def Obligations.NotResult : Prop :=
  ∀ (d : Operand) (s : State), Admissible (.not d) s → s.mem.wf = true →
    (operandFault s d = none →
      Updates (.not d) s d (fun x r => r.toNat = 2 ^ 32 - 1 - x.toNat) (fun _ _ f => f = s.flags)) ∧
    (∀ f, operandFault s d = some f → exec (.not d) s = .fault f)

/-- And, Or, Xor (R152, R153, R154): bit by bit; OF is 0, SF and ZF as usual. -/
def Obligations.LogicResult : Prop :=
  ∀ (i : Instr) (op : Bool → Bool → Bool) (d src : Operand) (s : State),
    (i = .and d src ∧ op = Bool.and) ∨ (i = .or d src ∧ op = Bool.or) ∨ (i = .xor d src ∧ op = Bool.xor) →
    Admissible i s → s.mem.wf = true →
    (∀ v, val s src = .next v → operandFault s d = none →
      Updates i s d (fun x r => ∀ k : Nat, k < 32 → r.getLsbD k = op (x.getLsbD k) (v.getLsbD k))
        (fun _ r f => f.OF = false ∧ AsUsual f r)) ∧
    (∀ f, operandFault s src = some f ∨ operandFault s d = some f → exec i s = .fault f)

/-! ### Bit manipulation -/

/-- The amount of a shift (R170): the operand's value, unsigned. Up to 31 it is used as it is under either policy; above 31,
`fault` raises `ShiftAmount` whatever the destination, and `mask5` shifts by the amount modulo 32. -/
def Obligations.ShiftAmountPolicies : Prop :=
  ∀ (d a : Operand) (s : State) (w : Word), val s a = .next w →
    (w.toNat ≤ 31 → shiftAmount s a = .next w.toNat) ∧
    (31 < w.toNat → s.env.shiftAmt = .fault →
      ∀ i, IsShift i d a → Admissible i s → exec i s = .fault (.shiftAmount w.toNat)) ∧
    (31 < w.toNat → s.env.shiftAmt = .mask5 →
      (Admissible (.sar d a) s → exec (.sar d a) s = exec (.sar d (.imm (BitVec.ofNat 32 (w.toNat % 32)))) s) ∧
      (Admissible (.shl d a) s → exec (.shl d a) s = exec (.shl d (.imm (BitVec.ofNat 32 (w.toNat % 32)))) s) ∧
      (Admissible (.shr d a) s → exec (.shr d a) s = exec (.shr d (.imm (BitVec.ofNat 32 (w.toNat % 32)))) s))

/-- Sar (R171). -/
def Obligations.SarResult : Prop :=
  ∀ (d a : Operand) (s : State) (w : Word), Admissible (.sar d a) s → s.mem.wf = true → val s a = .next w →
    w.toNat ≤ 31 →
    (operandFault s d = none →
      Updates (.sar d a) s d (fun x r => r.toInt = Int.fdiv x.toInt (2 ^ w.toNat))
        (fun _ r f => (w.toNat = 0 → f = s.flags) ∧ (w.toNat ≠ 0 → AsUsual f r) ∧
          (w.toNat = 1 → f.OF = false) ∧ (w.toNat ≠ 1 → f.OF = s.flags.OF))) ∧
    (∀ f, operandFault s d = some f → exec (.sar d a) s = .fault f)

/-- Shl (R172), under both values of `SHL_OF_POLICY`. -/
def Obligations.ShlResult : Prop :=
  ∀ (d a : Operand) (s : State) (w : Word), Admissible (.shl d a) s → s.mem.wf = true → val s a = .next w →
    w.toNat ≤ 31 →
    (operandFault s d = none →
      Updates (.shl d a) s d (fun x r => r.toNat = x.toNat * 2 ^ w.toNat % 2 ^ 32)
        (fun x r f => (w.toNat = 0 → f = s.flags) ∧ (w.toNat ≠ 0 → AsUsual f r) ∧
          (w.toNat = 1 → x.getLsbD 31 ≠ x.getLsbD 30 → f.OF = true) ∧
          (w.toNat = 1 → x.getLsbD 31 = x.getLsbD 30 →
            f.OF = match s.env.shlOf with
              | .literal => s.flags.OF
              | .assign => false) ∧
          (w.toNat ≠ 1 → f.OF = s.flags.OF))) ∧
    (∀ f, operandFault s d = some f → exec (.shl d a) s = .fault f)

/-- Shr (R173). -/
def Obligations.ShrResult : Prop :=
  ∀ (d a : Operand) (s : State) (w : Word), Admissible (.shr d a) s → s.mem.wf = true → val s a = .next w →
    w.toNat ≤ 31 →
    (operandFault s d = none →
      Updates (.shr d a) s d (fun x r => r.toNat = x.toNat / 2 ^ w.toNat)
        (fun x r f => (w.toNat = 0 → f = s.flags) ∧ (w.toNat ≠ 0 → AsUsual f r) ∧
          (w.toNat = 1 → f.OF = x.getLsbD 31) ∧ (w.toNat ≠ 1 → f.OF = s.flags.OF))) ∧
    (∀ f, operandFault s d = some f → exec (.shr d a) s = .fault f)

/-- Setb (R174): bits 31:8 kept, bits 7:0 say whether the condition holds; no flag written. -/
def Obligations.SetbResult : Prop :=
  ∀ (d : Operand) (cc : CC) (s : State), Admissible (.setb d cc) s → s.mem.wf = true →
    (operandFault s d = none →
      Updates (.setb d cc) s d
        (fun x r => r = (x &&& 0xffffff00#32) ||| (if s.flags.cond cc = true then 0x01#32 else 0x00#32))
        (fun _ _ f => f = s.flags)) ∧
    (∀ f, operandFault s d = some f → exec (.setb d cc) s = .fault f)

/-- The laws of the shifts (R175): the three values as products and floors of quotients, and two shifts in a row as one of
the summed amount. -/
def Obligations.ShiftLaws : Prop :=
  ∀ (x : Word) (m n : Nat), m + n ≤ 31 →
    (shlValue x m).toNat = x.toNat * 2 ^ m % 2 ^ 32 ∧ shlValue x m = trunc32 (x.toInt * 2 ^ m) ∧
    (shrValue x m).toNat = x.toNat / 2 ^ m ∧ (sarValue x m).toInt = Int.fdiv x.toInt (2 ^ m) ∧
    shlValue (shlValue x m) n = shlValue x (m + n) ∧ shrValue (shrValue x m) n = shrValue x (m + n) ∧
    sarValue (sarValue x m) n = sarValue x (m + n)

/-! ### Data movement -/

/-- Lea (R190): the effective address itself, whatever its alignment; nothing faults and memory is not touched. -/
def Obligations.LeaResult : Prop :=
  ∀ (d : Reg) (src : Ind) (s : State), Admissible (.lea d src) s →
    ∃ t, exec (.lea d src) s = .next t ∧ t.getReg d = ea s src ∧ t.flags = s.flags ∧ t.pc = s.npc ∧
      t.draws = s.draws ∧ OnlyWrites s t [.reg d]

/-- Mov (R191). -/
def Obligations.MovResult : Prop :=
  ∀ (d src : Operand) (s : State), Admissible (.mov d src) s → s.mem.wf = true →
    (∀ v, val s src = .next v → operandFault s d = none →
      Updates (.mov d src) s d (fun _ r => r = v) (fun _ _ f => f = s.flags)) ∧
    (∀ f, operandFault s src = some f ∨ operandFault s d = some f → exec (.mov d src) s = .fault f)

/-- Push (R192), for an operand that does not depend on ESP. -/
def Obligations.PushResult : Prop :=
  ∀ (src : Operand) (s : State), Admissible (.push src) s → dependsOnEsp src = false → s.mem.wf = true →
    (∀ v, val s src = .next v → s.env.accessFault (s.getReg .esp - 4) = none →
      ∃ t, exec (.push src) s = .next t ∧ t.getReg .esp = s.getReg .esp - 4 ∧
        t.mem.readWord (s.getReg .esp - 4).toNat = v ∧ t.flags = s.flags ∧ t.pc = s.npc ∧ t.draws = s.draws ∧
        OnlyWrites s t [.reg .esp, .word (s.getReg .esp - 4)]) ∧
    (∀ f, operandFault s src = some f → exec (.push src) s = .fault f) ∧
    (∀ f, operandFault s src = none → s.env.accessFault (s.getReg .esp - 4) = some f → exec (.push src) s = .fault f)

/-- Pop (R193), for a destination that does not depend on ESP. -/
def Obligations.PopResult : Prop :=
  ∀ (d : Operand) (s : State), Admissible (.pop d) s → dependsOnEsp d = false → s.mem.wf = true →
    (∀ v, s.memRead (s.getReg .esp) = .next v → operandFault s d = none →
      ∃ p t, placeOf s d = some p ∧ exec (.pop d) s = .next t ∧ t.content p = v ∧
        t.getReg .esp = s.getReg .esp + 4 ∧ t.flags = s.flags ∧ t.pc = s.npc ∧ t.draws = s.draws ∧
        OnlyWrites s t [.reg .esp, p]) ∧
    (∀ f, s.memRead (s.getReg .esp) = .fault f → exec (.pop d) s = .fault f) ∧
    (∀ v f, s.memRead (s.getReg .esp) = .next v → operandFault s d = some f → exec (.pop d) s = .fault f)

/-- Which operands depend on ESP, and Push, Pop and Call on one that does, under the three policies (R194). Which fault comes
first where two accesses fault rests on R244 and, for Call under `sequential`, on log entry 15. -/
def Obligations.EspOperandPolicies : Prop :=
  (∀ o, dependsOnEsp o = true ↔ o = .reg .esp ∨ ∃ i, o = .ind i ∧ i.base = some .esp) ∧
  PushOnEsp ∧ PopOnEsp ∧ CallOnEsp

/-- A word pushed is the word popped, and ESP is back where it was (R76, R192, R193). -/
def Obligations.PushThenPop : Prop :=
  ∀ (src : Operand) (q : Reg) (s t : State) (v : Word), s.mem.wf = true → q ≠ .esp → dependsOnEsp src = false →
    val s src = .next v → exec (.push src) s = .next t →
    ∃ u, exec (.pop (.reg q)) t = .next u ∧ u.getReg q = v ∧ (∀ r, r ≠ q → u.getReg r = s.getReg r) ∧ u.flags = s.flags

/-! ### Control flow -/

/-- Cmp (R210): the flags of Sub, and nothing else changes. -/
def Obligations.CmpResult : Prop :=
  ∀ (o1 o2 : Operand) (s : State), Admissible (.cmp o1 o2) s →
    (∀ a v, val s o1 = .next a → val s o2 = .next v →
      ∃ t, exec (.cmp o1 o2) s = .next t ∧ SubFlagRule a v (trunc32 (a.toInt + (0 - v.toInt))) t.flags ∧
        t.pc = s.npc ∧ t.draws = s.draws ∧ OnlyWrites s t []) ∧
    (∀ f, operandFault s o1 = some f ∨ operandFault s o2 = some f → exec (.cmp o1 o2) s = .fault f)

/-- Jmp (R211): the target is not checked. -/
def Obligations.JmpResult : Prop :=
  ∀ (src : Operand) (s : State), Admissible (.jmp src) s →
    (∀ w, val s src = .next w →
      ∃ t, exec (.jmp src) s = .next t ∧ t.pc = w ∧ t.flags = s.flags ∧ t.draws = s.draws ∧ OnlyWrites s t []) ∧
    (∀ f, operandFault s src = some f → exec (.jmp src) s = .fault f)

/-- Call (R212), for an operand that does not depend on ESP: the value pushed is `npc`. -/
def Obligations.CallResult : Prop :=
  ∀ (src : Operand) (s : State), Admissible (.call src) s → dependsOnEsp src = false → s.mem.wf = true →
    (∀ w, val s src = .next w → s.env.accessFault (s.getReg .esp - 4) = none →
      ∃ t, exec (.call src) s = .next t ∧ t.pc = w ∧ t.getReg .esp = s.getReg .esp - 4 ∧
        t.mem.readWord (s.getReg .esp - 4).toNat = s.npc ∧ t.flags = s.flags ∧ t.draws = s.draws ∧
        OnlyWrites s t [.reg .esp, .word (s.getReg .esp - 4)]) ∧
    (∀ f, operandFault s src = some f → exec (.call src) s = .fault f) ∧
    (∀ f, operandFault s src = none → s.env.accessFault (s.getReg .esp - 4) = some f → exec (.call src) s = .fault f)

/-- Ret (R213). -/
def Obligations.RetResult : Prop :=
  ∀ s : State,
    (∀ w, s.memRead (s.getReg .esp) = .next w →
      ∃ t, exec .ret s = .next t ∧ t.pc = w ∧ t.getReg .esp = s.getReg .esp + 4 ∧ t.flags = s.flags ∧
        t.draws = s.draws ∧ OnlyWrites s t [.reg .esp]) ∧
    (∀ f, s.memRead (s.getReg .esp) = .fault f → exec .ret s = .fault f)

/-- J (R214): taken exactly when the condition holds; it never faults. -/
def Obligations.ConditionalJumpResult : Prop :=
  ∀ (cc : CC) (l : Label) (s : State) (a : Word), s.env.label? l = some a →
    ∃ t, exec (.j cc l) s = .next t ∧ t.pc = (if s.flags.cond cc = true then a else s.npc) ∧ t.flags = s.flags ∧
      t.draws = s.draws ∧ OnlyWrites s t []

/-- A procedure that returns at once: after Call, Ret comes back to the instruction after the Call with every register as
before it (R76, R212, R213, conflict C5). -/
def Obligations.CallThenRet : Prop :=
  ∀ (src : Operand) (s t : State), s.mem.wf = true → exec (.call src) s = .next t →
    ∃ u, exec .ret t = .next u ∧ u.pc = s.npc ∧ (∀ r, u.getReg r = s.getReg r) ∧ u.flags = s.flags

/-! ### Rules over all instructions -/

/-- What any instruction changes, whichever policy holds: no register but its destination (and ESP for Push, Pop, Call,
Ret), no byte of memory but the word it stores to, no parameter of the launch; only Imul draws free bits (R62, R189). -/
def Obligations.InstructionFrame : Prop :=
  ∀ (i : Instr) (s t : State), exec i s = .next t →
    (∀ r, r ∉ writtenRegs i → t.getReg r = s.getReg r) ∧
    (∀ x : Nat, (∀ a, storedWord s i = some a → ¬ InWord a x) → t.mem.readByte x = s.mem.readByte x) ∧
    t.env = s.env ∧ ((∀ r o, i ≠ .imul r o) → t.draws = s.draws)

/-- The instructions whose Flags column is "---" leave all three flags as they were (R29). -/
def Obligations.NonWritersKeepFlags : Prop :=
  ∀ (i : Instr) (s t : State), keepsFlags i = true → exec i s = .next t → t.flags = s.flags

/-- The flags are read by J and Setb alone, and by them only through the condition code (R30): any other instruction does
the same under any flags, but for the flags themselves. -/
def Obligations.OnlyJAndSetbReadFlags : Prop :=
  ∀ (i : Instr) (s : State) (f : Flags),
    ((∀ cc l, i ≠ .j cc l) ∧ (∀ d cc, i ≠ .setb d cc) ∨
      ∃ cc, ((∃ l, i = .j cc l) ∨ ∃ d, i = .setb d cc) ∧ f.cond cc = s.flags.cond cc) →
    (∀ t, exec i s = .next t → ∃ g, exec i (s.withFlags f) = .next (t.withFlags g)) ∧
    (∀ e, exec i s = .fault e → exec i (s.withFlags f) = .fault e)

/-- Which faults each instruction can raise, and why (R242): `EspOperand` by Push, Pop and Call, `ShiftAmount` by the shifts,
`Misaligned` and `InvalidAddress` by the forms that access memory; Lea and J raise none. -/
def Obligations.FaultsOfEachInstruction : Prop :=
  ∀ (i : Instr) (s : State) (f : Fault), exec i s = .fault f → FaultCause i s f

/-- The five faults of a step and their causes (R241), with the codes the rule numbers them by. -/
def Obligations.FaultsOfAStep : Prop :=
  ∀ (s : State) (f : Fault), step s = .fault f →
    s.pc ≠ s.env.exitAddr ∧
    ((f.code = 1 ∧ f = .noInstruction s.pc ∧ lookup s.pc s.env.prog = none) ∨
      (∃ i, lookup s.pc s.env.prog = some i ∧ FaultCause i s f ∧
        ((f.code = 2 ∧ f = .espOperand i) ∨ (f.code = 3 ∧ ∃ n, f = .shiftAmount n) ∨
          (f.code = 4 ∧ ∃ a, f = .misaligned a) ∨ (f.code = 5 ∧ ∃ a, f = .invalidAddress a))))

/-- The order of faults inside one instruction (R244): the fetch first; `EspOperand` before the operand is evaluated;
`ShiftAmount` before the destination is read; the read of the operand before the write below ESP; Pop's read at ESP before
its write; `Misaligned` before `InvalidAddress`. -/
def Obligations.FaultPriority : Prop :=
  ∀ s : State,
    (s.pc ≠ s.env.exitAddr → lookup s.pc s.env.prog = none → step s = .fault (.noInstruction s.pc)) ∧
    (∀ i o, StackOperand i o → Admissible i s → s.env.espOperand = .fault → dependsOnEsp o = true →
      exec i s = .fault (.espOperand i)) ∧
    (∀ i d a w, IsShift i d a → Admissible i s → s.env.shiftAmt = .fault → val s a = .next w → 31 < w.toNat →
      exec i s = .fault (.shiftAmount w.toNat)) ∧
    (∀ i o f, (i = .push o ∨ i = .call o) → Admissible i s → dependsOnEsp o = false → operandFault s o = some f →
      exec i s = .fault f) ∧
    (∀ d f, Admissible (.pop d) s → dependsOnEsp d = false → s.env.accessFault (s.getReg .esp) = some f →
      exec (.pop d) s = .fault f) ∧
    (∀ a v, a.toNat % 4 ≠ 0 → s.memRead a = .fault (.misaligned a) ∧ s.memWrite a v = .fault (.misaligned a))
end

