-- ==== Sys2Proof/Laws/Memory.lean ====
section
/-! SUPPORT. The laws of data memory: a read after a write, bytes a write leaves alone, and the canonical form, which every
memory operation keeps. -/

namespace Sys2Proof.Machine

/-! ### Bytes -/

/-- A write leaves every other byte alone, canonical or not. -/
theorem Memory.readByte_writeByte_ne (m : Memory) {a x : Nat} (v : Byte) (h : x ≠ a) :
    (Memory.writeByte m a v).readByte x = m.readByte x := by
  induction m with
  | nil => by_cases hv : v = unlistedByte <;> simp [writeByte, readByte, hv, h]
  | cons c rest ih =>
    obtain ⟨b, w⟩ := c
    simp only [writeByte]
    split
    · split <;> simp [readByte, h]
    · split
      · rename_i hab
        subst hab
        split <;> simp [readByte, h]
      · simp [readByte, ih]

theorem Memory.wfFrom_mono {m : Memory} {lo hi : Nat} (h : lo ≤ hi) (hm : Memory.wfFrom hi m = true) :
    Memory.wfFrom lo m = true := by
  cases m with
  | nil => rfl
  | cons c rest =>
    obtain ⟨b, w⟩ := c
    simp only [wfFrom, Bool.and_eq_true, decide_eq_true_eq] at hm ⊢
    exact ⟨⟨⟨h.trans hm.1.1.1, hm.1.1.2⟩, hm.1.2⟩, hm.2⟩

/-- An address below the first possible cell is unlisted. -/
theorem Memory.readByte_of_lt {m : Memory} {lo a : Nat} (hm : Memory.wfFrom lo m = true) (h : a < lo) :
    m.readByte a = unlistedByte := by
  induction m generalizing lo with
  | nil => rfl
  | cons c rest ih =>
    obtain ⟨b, w⟩ := c
    simp only [wfFrom, Bool.and_eq_true, decide_eq_true_eq] at hm
    have hab : a ≠ b := by omega
    simp only [readByte, hab, if_false]
    exact ih hm.2 (by omega)

/-- A byte reads what was last written to it (R71). -/
theorem Memory.readByte_writeByte_same {m : Memory} (hm : m.wf = true) (a : Nat) (v : Byte) :
    (m.writeByte a v).readByte a = v := by
  suffices H : ∀ lo, Memory.wfFrom lo m = true → (Memory.writeByte m a v).readByte a = v from H 0 hm
  clear hm
  induction m with
  | nil => intro lo _; by_cases hv : v = unlistedByte <;> simp [writeByte, readByte, hv]
  | cons c rest ih =>
    obtain ⟨b, w⟩ := c
    intro lo hm
    have hm' := hm
    simp only [wfFrom, Bool.and_eq_true, decide_eq_true_eq] at hm
    simp only [writeByte]
    split
    · rename_i hlt
      split
      · rename_i hv
        have : Memory.wfFrom (a + 1) ((b, w) :: rest) = true := by
          simp only [wfFrom, Bool.and_eq_true, decide_eq_true_eq]
          exact ⟨⟨⟨hlt, hm.1.1.2⟩, hm.1.2⟩, hm.2⟩
        rw [Memory.readByte_of_lt this (Nat.lt_succ_self a), hv]
      · simp [readByte]
    · split
      · rename_i hab
        subst hab
        split
        · rename_i hv
          rw [Memory.readByte_of_lt hm.2 (Nat.lt_succ_self a), hv]
        · simp [readByte]
      · rename_i hne
        simp only [readByte, hne, if_false]
        exact ih _ hm.2

/-- Read a byte after a write to any. -/
theorem Memory.readByte_writeByte {m : Memory} (hm : m.wf = true) (a x : Nat) (v : Byte) :
    (m.writeByte a v).readByte x = if x = a then v else m.readByte x := by
  by_cases h : x = a
  · subst h; simp [Memory.readByte_writeByte_same hm]
  · simp [h, Memory.readByte_writeByte_ne m v h]

theorem Memory.wfFrom_writeByte {m : Memory} {a : Nat} (v : Byte) (ha : a < 2 ^ 32) :
    ∀ lo, lo ≤ a → Memory.wfFrom lo m = true → Memory.wfFrom lo (Memory.writeByte m a v) = true := by
  induction m with
  | nil =>
    intro lo hlo _
    by_cases hv : v = unlistedByte
    · simp [writeByte, wfFrom, hv]
    · simp only [writeByte, hv, if_false, wfFrom, Bool.and_eq_true, decide_eq_true_eq]
      exact ⟨⟨⟨hlo, ha⟩, hv⟩, trivial⟩
  | cons c rest ih =>
    obtain ⟨b, w⟩ := c
    intro lo hlo hm
    have hm' := hm
    simp only [wfFrom, Bool.and_eq_true, decide_eq_true_eq] at hm
    simp only [writeByte]
    split
    · split
      · exact hm'
      · rename_i hv
        simp only [wfFrom, Bool.and_eq_true, decide_eq_true_eq]
        exact ⟨⟨⟨hlo, ha⟩, hv⟩, ⟨⟨by omega, hm.1.1.2⟩, hm.1.2⟩, hm.2⟩
    · split
      · rename_i hab
        subst hab
        split
        · exact Memory.wfFrom_mono (by omega) hm.2
        · rename_i hv
          simp only [wfFrom, Bool.and_eq_true, decide_eq_true_eq]
          exact ⟨⟨⟨hlo, ha⟩, hv⟩, hm.2⟩
      · simp only [wfFrom, Bool.and_eq_true, decide_eq_true_eq]
        exact ⟨hm.1, ih (b + 1) (by omega) hm.2⟩

/-- Writing a byte keeps the canonical form. -/
theorem Memory.wf_writeByte {m : Memory} {a : Nat} (v : Byte) (hm : m.wf = true) (ha : a < 2 ^ 32) :
    (m.writeByte a v).wf = true := Memory.wfFrom_writeByte v ha 0 (Nat.zero_le a) hm

/-- Canonical memories that read alike are equal data. -/
theorem Memory.wf_ext {m n : Memory} (hm : m.wf = true) (hn : n.wf = true) (h : ∀ x, m.readByte x = n.readByte x) :
    m = n := by
  suffices H : ∀ lo, Memory.wfFrom lo m = true → ∀ n, Memory.wfFrom lo n = true →
      (∀ x, Memory.readByte m x = Memory.readByte n x) → m = n from H 0 hm n hn h
  clear hm hn h n
  induction m with
  | nil =>
    intro lo _ n hn h
    cases n with
    | nil => rfl
    | cons c rest =>
      obtain ⟨b, w⟩ := c
      simp only [wfFrom, Bool.and_eq_true, decide_eq_true_eq] at hn
      have := h b
      simp only [readByte, if_true] at this
      exact absurd this.symm hn.1.2
  | cons c rest ih =>
    obtain ⟨b, w⟩ := c
    intro lo hm n hn h
    simp only [wfFrom, Bool.and_eq_true, decide_eq_true_eq] at hm
    cases n with
    | nil =>
      have := h b
      simp only [readByte, if_true] at this
      exact absurd this hm.1.2
    | cons d rest' =>
      obtain ⟨b', w'⟩ := d
      simp only [wfFrom, Bool.and_eq_true, decide_eq_true_eq] at hn
      have hbb : b = b' := by
        rcases lt_trichotomy b b' with hlt | heq | hlt
        · have := h b
          simp only [readByte, if_true, Nat.ne_of_lt hlt, if_false] at this
          rw [Memory.readByte_of_lt hn.2 (by omega)] at this
          exact absurd this hm.1.2
        · exact heq
        · have := h b'
          simp only [readByte, if_true, Nat.ne_of_lt hlt, if_false] at this
          rw [Memory.readByte_of_lt hm.2 (by omega)] at this
          exact absurd this.symm hn.1.2
      subst hbb
      have hw : w = w' := by simpa [readByte] using h b
      subst hw
      congr 1
      refine ih (b + 1) hm.2 rest' hn.2 fun x => ?_
      by_cases hx : x = b
      · subst hx
        rw [Memory.readByte_of_lt hm.2 (Nat.lt_succ_self x), Memory.readByte_of_lt hn.2 (Nat.lt_succ_self x)]
      · simpa [readByte, hx] using h x

/-! ### Words -/

/-- A word is put together again from its four bytes, whatever the byte order (R64). -/
@[simp] theorem wordOf_byteOf (v : Word) : wordOf (byteOf v 0) (byteOf v 1) (byteOf v 2) (byteOf v 3) = v := by
  apply BitVec.eq_of_getLsbD_eq
  intro k hk
  simp only [wordOf, byteOf, BitVec.getLsbD_append, BitVec.getLsbD_extractLsb']
  by_cases h0 : k < 8
  · simp [h0]
  · by_cases h1 : k - 8 < 8
    · simp [h0, h1, show 8 + (k - 8) = k by omega]
    · by_cases h2 : k - 8 - 8 < 8
      · simp [h0, h1, h2, show 16 + (k - 8 - 8) = k by omega]
      · have h3 : k - 8 - 8 - 8 < 8 := by omega
        simp [h0, h1, h2, h3, show 24 + (k - 8 - 8 - 8) = k by omega]

/-- A word store leaves every byte outside the word alone. -/
theorem Memory.readByte_writeWord_ne (m : Memory) {a x : Nat} (v : Word) (h : x < a ∨ a + 4 ≤ x) :
    (m.writeWord a v).readByte x = m.readByte x := by
  simp only [writeWord]
  rw [readByte_writeByte_ne _ _ (by omega), readByte_writeByte_ne _ _ (by omega), readByte_writeByte_ne _ _ (by omega),
    readByte_writeByte_ne _ _ (by omega)]

/-- A word store keeps the canonical form. -/
theorem Memory.wf_writeWord {m : Memory} {a : Nat} (v : Word) (hm : m.wf = true) (ha : a + 3 < 2 ^ 32) :
    (m.writeWord a v).wf = true :=
  wf_writeByte _ (wf_writeByte _ (wf_writeByte _ (wf_writeByte _ hm (by omega)) (by omega)) (by omega)) ha

/-- A word reads what was last written to it (R71). -/
theorem Memory.readWord_writeWord_same {m : Memory} {a : Nat} (v : Word) (hm : m.wf = true) (ha : a + 3 < 2 ^ 32) :
    (m.writeWord a v).readWord a = v := by
  have h0 := wf_writeByte (byteOf v 0) hm (show a < 2 ^ 32 by omega)
  have h1 := wf_writeByte (byteOf v 1) h0 (show a + 1 < 2 ^ 32 by omega)
  have h2 := wf_writeByte (byteOf v 2) h1 (show a + 2 < 2 ^ 32 by omega)
  simp only [readWord, writeWord]
  rw [readByte_writeByte_same h2, readByte_writeByte_ne _ _ (by omega), readByte_writeByte_ne _ _ (by omega),
    readByte_writeByte_ne _ _ (by omega), readByte_writeByte_same hm, readByte_writeByte_ne _ _ (by omega),
    readByte_writeByte_ne _ _ (by omega), readByte_writeByte_same h0, readByte_writeByte_ne _ _ (by omega),
    readByte_writeByte_same h1, wordOf_byteOf]

/-- A word store leaves every word apart from it alone. -/
theorem Memory.readWord_writeWord_ne (m : Memory) {a b : Nat} (v : Word) (h : b + 4 ≤ a ∨ a + 4 ≤ b) :
    (m.writeWord a v).readWord b = m.readWord b := by
  simp only [readWord]
  rw [readByte_writeWord_ne _ _ (by omega), readByte_writeWord_ne _ _ (by omega), readByte_writeWord_ne _ _ (by omega),
    readByte_writeWord_ne _ _ (by omega)]

/-- Equal bytes make an equal word. -/
theorem Memory.readWord_congr {m n : Memory} {a : Nat} (h : ∀ x, a ≤ x → x < a + 4 → m.readByte x = n.readByte x) :
    m.readWord a = n.readWord a := by
  simp only [readWord]
  rw [h a (by omega) (by omega), h (a + 1) (by omega) (by omega), h (a + 2) (by omega) (by omega),
    h (a + 3) (by omega) (by omega)]

/-- An aligned word lies inside the address space. -/
theorem aligned_bound {a : Word} (h : aligned a = true) : a.toNat + 3 < 2 ^ 32 := by
  simp only [aligned, beq_iff_eq] at h
  have := a.isLt
  omega

/-- Two aligned words are the same word or share no byte. -/
theorem aligned_disjoint {a b : Word} (ha : aligned a = true) (hb : aligned b = true) (h : a ≠ b) :
    b.toNat + 4 ≤ a.toNat ∨ a.toNat + 4 ≤ b.toNat := by
  simp only [aligned, beq_iff_eq] at ha hb
  have : a.toNat ≠ b.toNat := fun e => h (BitVec.eq_of_toNat_eq e)
  omega

/-- Any contents of the first `n` addresses is some canonical memory's: a launch may leave any memory (R41). -/
theorem Memory.exists_of_contents (f : Nat → Byte) (n : Nat) (hn : n ≤ 2 ^ 32) :
    ∃ m : Memory, m.wf = true ∧ ∀ x, m.readByte x = if x < n then f x else unlistedByte := by
  induction n with
  | zero => exact ⟨[], rfl, fun x => by simp [readByte]⟩
  | succ n ih =>
    obtain ⟨m, hm, hr⟩ := ih (by omega)
    refine ⟨m.writeByte n (f n), wf_writeByte _ hm (by omega), fun x => ?_⟩
    rw [readByte_writeByte hm, hr]
    by_cases h : x = n
    · subst h; simp
    · simp only [h, if_false]
      by_cases h' : x < n
      · simp [h', Nat.lt_succ_of_lt h']
      · simp [h', show ¬ x < n + 1 by omega]

end Sys2Proof.Machine
end

