-- ==== Sys2Proof/Laws/State.lean ====
section
/-! SUPPORT. One lemma per field per update of the state, and the laws of the register file. -/

namespace Sys2Proof.Machine

section
variable (s : State) (r : Reg) (v : Word) (f : Flags) (m : Memory) (x : Int)

@[simp] theorem State.setReg_pc : (s.setReg r v).pc = s.pc := rfl
@[simp] theorem State.setReg_flags : (s.setReg r v).flags = s.flags := rfl
@[simp] theorem State.setReg_mem : (s.setReg r v).mem = s.mem := rfl
@[simp] theorem State.setReg_draws : (s.setReg r v).draws = s.draws := rfl
@[simp] theorem State.setReg_env : (s.setReg r v).env = s.env := rfl

@[simp] theorem State.withFlags_regs : (s.withFlags f).regs = s.regs := rfl
@[simp] theorem State.withFlags_pc : (s.withFlags f).pc = s.pc := rfl
@[simp] theorem State.withFlags_flags : (s.withFlags f).flags = f := rfl
@[simp] theorem State.withFlags_mem : (s.withFlags f).mem = s.mem := rfl
@[simp] theorem State.withFlags_draws : (s.withFlags f).draws = s.draws := rfl
@[simp] theorem State.withFlags_env : (s.withFlags f).env = s.env := rfl

@[simp] theorem State.withMem_regs : (s.withMem m).regs = s.regs := rfl
@[simp] theorem State.withMem_pc : (s.withMem m).pc = s.pc := rfl
@[simp] theorem State.withMem_flags : (s.withMem m).flags = s.flags := rfl
@[simp] theorem State.withMem_mem : (s.withMem m).mem = m := rfl
@[simp] theorem State.withMem_draws : (s.withMem m).draws = s.draws := rfl
@[simp] theorem State.withMem_env : (s.withMem m).env = s.env := rfl

@[simp] theorem State.jump_regs : (s.jump v).regs = s.regs := rfl
@[simp] theorem State.jump_pc : (s.jump v).pc = v := rfl
@[simp] theorem State.jump_flags : (s.jump v).flags = s.flags := rfl
@[simp] theorem State.jump_mem : (s.jump v).mem = s.mem := rfl
@[simp] theorem State.jump_draws : (s.jump v).draws = s.draws := rfl
@[simp] theorem State.jump_env : (s.jump v).env = s.env := rfl

@[simp] theorem State.advance_regs : s.advance.regs = s.regs := rfl
@[simp] theorem State.advance_pc : s.advance.pc = s.npc := rfl
@[simp] theorem State.advance_flags : s.advance.flags = s.flags := rfl
@[simp] theorem State.advance_mem : s.advance.mem = s.mem := rfl
@[simp] theorem State.advance_draws : s.advance.draws = s.draws := rfl
@[simp] theorem State.advance_env : s.advance.env = s.env := rfl

@[simp] theorem State.popped_pc : s.popped.pc = s.pc := rfl
@[simp] theorem State.popped_flags : s.popped.flags = s.flags := rfl
@[simp] theorem State.popped_mem : s.popped.mem = s.mem := rfl
@[simp] theorem State.popped_draws : s.popped.draws = s.draws := rfl
@[simp] theorem State.popped_env : s.popped.env = s.env := rfl

@[simp] theorem State.withMulFlags_regs : (s.withMulFlags x).regs = s.regs := rfl
@[simp] theorem State.withMulFlags_pc : (s.withMulFlags x).pc = s.pc := rfl
@[simp] theorem State.withMulFlags_flags_OF : (s.withMulFlags x).flags.OF = imulOverflow x := rfl
@[simp] theorem State.withMulFlags_flags_SF : (s.withMulFlags x).flags.SF = Config.freeBit s.draws := rfl
@[simp] theorem State.withMulFlags_flags_ZF : (s.withMulFlags x).flags.ZF = Config.freeBit (s.draws + 1) := rfl
@[simp] theorem State.withMulFlags_mem : (s.withMulFlags x).mem = s.mem := rfl
@[simp] theorem State.withMulFlags_draws : (s.withMulFlags x).draws = s.draws + 2 := rfl
@[simp] theorem State.withMulFlags_env : (s.withMulFlags x).env = s.env := rfl

@[simp] theorem Flags.sz_OF (w : Word) : (f.sz w).OF = f.OF := rfl
@[simp] theorem Flags.sz_SF (w : Word) : (f.sz w).SF = w.msb := rfl
@[simp] theorem Flags.sz_ZF (w : Word) : (f.sz w).ZF = (w == 0) := rfl

end

/-- A register reads what was last written to it (R21, R22). -/
@[simp] theorem RegFile.get_set_same (f : RegFile) (r : Reg) (v : Word) : (f.set r v).get r = v := by cases r <;> rfl

/-- No register is an alias of another (R22). -/
theorem RegFile.get_set_ne (f : RegFile) {r q : Reg} (v : Word) (h : q ≠ r) : (f.set r v).get q = f.get q := by
  cases r <;> cases q <;> first | rfl | exact absurd rfl h

/-- Read a register after a write to any. -/
theorem RegFile.get_set (f : RegFile) (r q : Reg) (v : Word) : (f.set r v).get q = if q = r then v else f.get q := by
  by_cases h : q = r
  · simp [h]
  · simp [h, RegFile.get_set_ne f v h]

@[simp] theorem RegFile.set_set (f : RegFile) (r : Reg) (v w : Word) : (f.set r v).set r w = f.set r w := by
  cases r <;> rfl

/-- Two register files that read alike are one. -/
theorem RegFile.ext_get {f g : RegFile} (h : ∀ r, f.get r = g.get r) : f = g := by
  cases f; cases g
  simp only [RegFile.mk.injEq]
  exact ⟨h .eax, h .ebx, h .ecx, h .edx, h .esi, h .edi, h .ebp, h .esp⟩

theorem State.getReg_setReg (s : State) (r q : Reg) (v : Word) :
    (s.setReg r v).getReg q = if q = r then v else s.getReg q := RegFile.get_set s.regs r q v

@[simp] theorem State.getReg_setReg_same (s : State) (r : Reg) (v : Word) : (s.setReg r v).getReg r = v :=
  RegFile.get_set_same s.regs r v

@[simp] theorem State.getReg_withFlags (s : State) (f : Flags) (r : Reg) : (s.withFlags f).getReg r = s.getReg r := rfl
@[simp] theorem State.getReg_jump (s : State) (v : Word) (r : Reg) : (s.jump v).getReg r = s.getReg r := rfl
@[simp] theorem State.getReg_advance (s : State) (r : Reg) : s.advance.getReg r = s.getReg r := rfl
@[simp] theorem State.getReg_withMulFlags (s : State) (x : Int) (r : Reg) :
    (s.withMulFlags x).getReg r = s.getReg r := rfl
@[simp] theorem State.getReg_withMem (s : State) (m : Memory) (r : Reg) :
    (s.withMem m).getReg r = s.getReg r := rfl

theorem State.getReg_popped (s : State) (q : Reg) :
    s.popped.getReg q = if q = .esp then s.getReg .esp + 4 else s.getReg q := State.getReg_setReg ..

end Sys2Proof.Machine
end

