-- ==== Sys2Proof/Laws/Launch.lean ====
section
/-! SUPPORT. What each part of the loader answers, said once: the decoded text, each check of R271, the loaded memory, and
when a launch is accepted. -/

namespace Sys2Proof.Machine

/-- The text decodes exactly when each of its terms does, address by address. -/
theorem decodeText_eq_ok {ts : List (Word × Term)} {prog : List (Word × Instr)} :
    decodeText ts = .ok prog ↔ List.Forall₂ (fun p q => q.1 = p.1 ∧ decode p.2 = .ok q.2) ts prog := by
  induction ts generalizing prog with
  | nil => simp [decodeText, eq_comm]
  | cons p rest ih =>
    obtain ⟨a, t⟩ := p
    simp only [decodeText]
    cases h : decode t with
    | error e => simp [List.forall₂_cons_left_iff, h]
    | ok i =>
      cases h' : decodeText rest with
      | error e =>
        simp only [List.forall₂_cons_left_iff, h]
        constructor
        · intro h; cases h
        · rintro ⟨q, l, -, h3, rfl⟩
          rw [ih.mpr h3] at h'
          cases h'
      | ok is =>
        simp only [List.forall₂_cons_left_iff, h]
        constructor
        · intro hh
          injection hh with hh
          subst hh
          exact ⟨(a, i), is, ⟨rfl, rfl⟩, ih.mp h', rfl⟩
        · rintro ⟨⟨b, k⟩, l, ⟨h1, h2⟩, h3, rfl⟩
          rw [ih.mpr h3] at h'
          injection h' with h'
          injection h2 with h2
          simp only at h1
          subst h' h2 h1
          rfl

/-- Check 1: no label is unresolved. -/
theorem firstUnresolved_eq_none {e : Env} {ps : List (Word × Instr)} :
    e.firstUnresolved ps = none ↔ ∀ p ∈ ps, e.unresolved p.2.labels = none := by
  induction ps with
  | nil => simp [Env.firstUnresolved]
  | cons p rest ih =>
    obtain ⟨a, i⟩ := p
    simp only [Env.firstUnresolved]
    cases h : e.unresolved i.labels <;> simp [h, ih]

/-- Check 2: any two slots keep their distance, in both directions around the address space. -/
theorem noOverlap_eq_true {n : Nat} {ps : List (Word × Instr)} :
    noOverlap n ps = true ↔ List.Pairwise (fun p q => n ≤ (p.1 - q.1).toNat ∧ n ≤ (q.1 - p.1).toNat) ps := by
  induction ps with
  | nil => simp [noOverlap]
  | cons p rest ih =>
    obtain ⟨a, i⟩ := p
    simp [noOverlap, ih, disjointSlots]

/-- Where slots do not overlap, each address holds one instruction: `lookup` finds what the list holds. -/
theorem lookup_of_mem {n : Nat} {ps : List (Word × Instr)} (hn : n ≠ 0) (h : noOverlap n ps = true) {p : Word × Instr}
    (hp : p ∈ ps) : lookup p.1 ps = some p.2 := by
  induction ps with
  | nil => simp at hp
  | cons q rest ih =>
    rw [noOverlap_eq_true, List.pairwise_cons] at h
    rcases List.mem_cons.mp hp with rfl | hr
    · simp [lookup]
    · have hne : p.1 ≠ q.1 := by
        intro he
        have := (h.1 p hr).1
        rw [he, BitVec.sub_self] at this
        simp only [BitVec.toNat_ofNat, Nat.zero_mod, Nat.le_zero_eq] at this
        exact hn this
      obtain ⟨b, k⟩ := q
      simp only [lookup, hne, if_false]
      exact ih (noOverlap_eq_true.mpr h.2) hr

/-- The loader's checks pass exactly when each of them does (R271). -/
theorem failedCheck_eq_none {l : Launch} {prog : List (Word × Instr)} :
    l.failedCheck prog = none ↔
      (∀ p ∈ prog, (l.env prog).unresolved p.2.labels = none) ∧ (l.ilen ≠ 0 ∧ l.ilen % 4 = 0) ∧
      (∀ p ∈ prog, aligned p.1 = true) ∧ noOverlap l.ilen prog = true ∧ (∃ i, lookup l.entry prog = some i) ∧
      (aligned l.stackTop = true ∧ (l.env prog).dataValid (l.stackTop - 4) = true) ∧
      (aligned l.exitAddr = true ∧ lookup l.exitAddr prog = none) ∧ ∀ p ∈ l.mem0, aligned p.1 = true := by
  simp only [Launch.failedCheck, show ∀ a, (l.env prog).instrAt a = lookup a prog from fun _ => rfl]
  cases h1 : (l.env prog).firstUnresolved prog with
  | some e =>
    have : ¬ ∀ p ∈ prog, (l.env prog).unresolved p.2.labels = none := by rw [← firstUnresolved_eq_none, h1]; simp
    simp only [reduceCtorEq, false_iff]
    tauto
  | none =>
    have h1 := firstUnresolved_eq_none.mp h1
    by_cases h2 : l.ilen = 0 || l.ilen % 4 != 0
    · simp only [h2]
      simp only [Bool.or_eq_true, decide_eq_true_eq, bne_iff_ne, ne_eq, if_true, reduceCtorEq, false_iff] at h2 ⊢
      rintro ⟨-, ⟨h3, h4⟩, -⟩
      omega
    · simp only [h2]
      have h2 : l.ilen ≠ 0 ∧ l.ilen % 4 = 0 := by simpa using h2
      cases h3 : prog.find? (fun p => !aligned p.1) with
      | some p =>
        have h4 : aligned p.1 = false := by simpa using List.find?_some h3
        simp only [Bool.false_eq_true, if_false, reduceCtorEq, false_iff]
        rintro ⟨-, -, h5, -⟩
        simp [h5 p (List.mem_of_find?_eq_some h3)] at h4
      | none =>
        have h3 : ∀ p ∈ prog, aligned p.1 = true := by simpa using h3
        cases h4 : noOverlap l.ilen prog
        · simp
        cases h5 : lookup l.entry prog
        · simp
        by_cases h6 : aligned l.stackTop && (l.env prog).dataValid (l.stackTop - 4)
        · by_cases h7 : aligned l.exitAddr && (lookup l.exitAddr prog).isNone
          · simp only [h6, h7]
            have h6 : aligned l.stackTop = true ∧ (l.env prog).dataValid (l.stackTop - 4) = true := by simpa using h6
            have h7 : aligned l.exitAddr = true ∧ lookup l.exitAddr prog = none := by simpa using h7
            cases h8 : l.mem0.find? (fun p => !aligned p.1) with
            | some p =>
              have h9 : aligned p.1 = false := by simpa using List.find?_some h8
              simp only [Bool.not_true, Option.isNone_some, Bool.false_eq_true, if_false, reduceCtorEq, false_iff]
              rintro ⟨-, -, -, -, -, -, -, h10⟩
              simp [h10 p (List.mem_of_find?_eq_some h8)] at h9
            | none =>
              have h8 : ∀ p ∈ l.mem0, aligned p.1 = true := by simpa using h8
              simp only [Bool.false_eq_true, if_false, Bool.not_true, Option.isNone_some, true_iff]
              exact ⟨h1, h2, h3, by trivial, ⟨_, rfl⟩, h6, h7, h8⟩
          · have h7' : ¬(aligned l.exitAddr = true ∧ lookup l.exitAddr prog = none) := by simpa using h7
            simp only [h6, h7]
            simp only [Bool.not_true, Option.isNone_some, Bool.false_eq_true, if_false, Bool.not_false, if_true,
              reduceCtorEq, false_iff]
            tauto
        · have h6' : ¬(aligned l.stackTop = true ∧ (l.env prog).dataValid (l.stackTop - 4) = true) := by simpa using h6
          simp only [h6]
          simp only [Bool.not_true, Option.isNone_some, Bool.false_eq_true, if_false, Bool.not_false, if_true,
            reduceCtorEq, false_iff]
          tauto

/-- The loader accepts a launch exactly when its text decodes and the checks pass; it then builds the first state. -/
theorem start_eq_ok {l : Launch} {s : State} :
    l.start = .ok s ↔ ∃ prog, decodeText l.text = .ok prog ∧ l.failedCheck prog = none ∧ s = l.firstState prog := by
  unfold Launch.start
  cases h : decodeText l.text with
  | error e => simp
  | ok prog => cases h' : l.failedCheck prog <;> simp [h', eq_comm]

/-- Loading words keeps the canonical form. -/
theorem wf_loadWords {ps : List (Word × Word)} :
    ∀ {m : Memory}, (∀ p ∈ ps, aligned p.1 = true) → m.wf = true → (loadWords m ps).wf = true := by
  induction ps with
  | nil => intro m _ h; exact h
  | cons p rest ih =>
    intro m ha hm
    exact ih (fun q hq => ha q (by simp [hq])) (Memory.wf_writeWord _ hm (aligned_bound (ha p (by simp))))

/-- Loading words leaves every other word alone. -/
theorem readWord_loadWords_ne {ps : List (Word × Word)} {a : Word} :
    ∀ {m : Memory}, (∀ p ∈ ps, aligned p.1 = true) → aligned a = true → (∀ p ∈ ps, p.1 ≠ a) →
      (loadWords m ps).readWord a.toNat = m.readWord a.toNat := by
  induction ps with
  | nil => intro m _ _ _; rfl
  | cons p rest ih =>
    intro m ha hb hn
    show (loadWords (m.writeWord p.1.toNat p.2) rest).readWord _ = _
    rw [ih (fun q hq => ha q (by simp [hq])) hb (fun q hq => hn q (by simp [hq]))]
    have := aligned_disjoint (ha p (by simp)) hb (hn p (by simp))
    exact Memory.readWord_writeWord_ne _ _ (by omega)

/-- A word loaded at an address that the list names once is there. -/
theorem readWord_loadWords {ps : List (Word × Word)} :
    ∀ {m : Memory}, (∀ p ∈ ps, aligned p.1 = true) → m.wf = true → (ps.map Prod.fst).Nodup →
      ∀ p ∈ ps, (loadWords m ps).readWord p.1.toNat = p.2 := by
  induction ps with
  | nil => simp
  | cons q rest ih =>
    intro m ha hm hn p hp
    simp only [List.map_cons, List.nodup_cons] at hn
    have hw := Memory.wf_writeWord q.2 hm (aligned_bound (ha q (by simp)))
    rcases List.mem_cons.mp hp with rfl | hp
    · show (loadWords (m.writeWord p.1.toNat p.2) rest).readWord _ = _
      rw [readWord_loadWords_ne (fun q hq => ha q (by simp [hq])) (ha p (by simp))
        (fun q hq he => hn.1 (he ▸ List.mem_map_of_mem hq))]
      exact Memory.readWord_writeWord_same _ hm (aligned_bound (ha p (by simp)))
    · exact ih (fun q hq => ha q (by simp [hq])) hw hn.2 p hp

/-- The word below an aligned address is aligned. -/
theorem aligned_sub_four {a : Word} (h : aligned a = true) : aligned (a - 4) = true := by
  simp only [aligned, beq_iff_eq] at h ⊢
  rw [BitVec.toNat_sub]
  simp only [BitVec.ofNat_eq_ofNat, BitVec.toNat_ofNat]
  omega

end Sys2Proof.Machine
end

