-- ==== Sys2Proof/Laws/WellFormed.lean ====
section
/-! SUPPORT. What passing each static check says of the operands, and the round trips between names, arguments and
instructions that the decoder rests on. -/

namespace Sys2Proof

theorem checkDest_eq_none {d : Operand} : checkDest d = none ↔ d.isLoc = true ∧ d.indexOk = true := by
  cases h1 : d.isLoc <;> cases h2 : d.indexOk <;> simp [checkDest, h1, h2]

theorem checkSrc_eq_none {s : Operand} : checkSrc s = none ↔ s.indexOk = true := by
  cases h : s.indexOk <;> simp [checkSrc, h]

theorem checkDestSrc_eq_none {d s : Operand} :
    checkDestSrc d s = none ↔
      d.isLoc = true ∧ ¬(d.isMem = true ∧ s.isMem = true) ∧ d.indexOk = true ∧ s.indexOk = true := by
  cases h1 : d.isLoc <;> cases h2 : d.isMem <;> cases h3 : s.isMem <;> cases h4 : d.indexOk <;> cases h5 : s.indexOk <;>
    simp [checkDestSrc, h1, h2, h3, h4, h5]

theorem checkDestAmt_eq_none {d a : Operand} :
    checkDestAmt d a = none ↔ d.isLoc = true ∧ a.isAmount = true ∧ d.indexOk = true := by
  cases h1 : d.isLoc <;> cases h2 : a.isAmount <;> cases h3 : d.indexOk <;> simp [checkDestAmt, h1, h2, h3]

theorem checkSrcSrc_eq_none {a b : Operand} :
    checkSrcSrc a b = none ↔ ¬(a.isMem = true ∧ b.isMem = true) ∧ a.indexOk = true ∧ b.indexOk = true := by
  cases h1 : a.isMem <;> cases h2 : b.isMem <;> cases h3 : a.indexOk <;> cases h4 : b.indexOk <;>
    simp [checkSrcSrc, h1, h2, h3, h4]

/-- The table's names select their own rows. -/
@[simp] theorem opcodeOfName_name (o : Opcode) : opcodeOfName o.name = some o := by cases o <;> rfl

/-- A name selects only the row it names. -/
theorem name_of_opcodeOfName {n : String} {o : Opcode} (h : opcodeOfName n = some o) : o.name = n := by
  have := List.find?_some h
  simpa using this

/-- Arguments that fill the typed positions are the arguments of the instruction they make. -/
theorem opcode_args_of_build {o : Opcode} {args : List Arg} {i : Instr} (h : build o args = some i) :
    i.opcode = o ∧ i.args = args := by
  unfold build at h
  split at h <;> first
    | (injection h with h; subst h; exact ⟨rfl, rfl⟩)
    | exact absurd h (by simp)

end Sys2Proof
end

