-- ==== Sys2Proof/Laws/Ops.lean ====
section
/-! SUPPORT. What each shared operation can answer, said once: equations for where it succeeds and where it stops, and one
inversion per operation for "it answered a next state". Provers cite these and unfold no operation. -/

namespace Sys2Proof.Machine

/-! ### Sequencing -/

@[simp] theorem andThen_next {α β : Type} (a : α) (k : α → Result β) : andThen (.next a) k = k a := rfl
@[simp] theorem andThen_fault {α β : Type} (f : Fault) (k : α → Result β) : andThen (.fault f) k = .fault f := rfl
@[simp] theorem andThen_refused {α β : Type} (q : Refusal) (k : α → Result β) : andThen (.refused q) k = .refused q := rfl
@[simp] theorem andThen_raise {α β : Type} (f : Fault) (k : α → Result β) : andThen (raise f) k = raise f := rfl

/-- A sequence answers a next state exactly when both parts do. -/
theorem andThen_eq_next {α β : Type} {r : Result α} {k : α → Result β} {b : β} :
    andThen r k = .next b ↔ ∃ a, r = .next a ∧ k a = .next b := by
  cases r <;> simp [andThen]

/-- A sequence faults when its first part does, or its second after the first. -/
theorem andThen_eq_fault {α β : Type} {r : Result α} {k : α → Result β} {f : Fault} :
    andThen r k = .fault f ↔ r = .fault f ∨ ∃ a, r = .next a ∧ k a = .fault f := by
  cases r <;> simp [andThen]

/-- A sequence refuses when its first part does, or its second after the first. -/
theorem andThen_eq_refused {α β : Type} {r : Result α} {k : α → Result β} {q : Refusal} :
    andThen r k = .refused q ↔ r = .refused q ∨ ∃ a, r = .next a ∧ k a = .refused q := by
  cases r <;> simp [andThen]

@[simp] theorem raise_eq_fault {α : Type} (f g : Fault) : (raise f : Result α) = .fault g ↔ f = g := by simp [raise]
@[simp] theorem raise_ne_next {α : Type} (f : Fault) (a : α) : (raise f : Result α) ≠ .next a := by simp [raise]
@[simp] theorem raise_ne_refused {α : Type} (f : Fault) (q : Refusal) : (raise f : Result α) ≠ .refused q := by simp [raise]

/-! ### Admission (R108) -/

/-- An admissible instruction is executed. -/
theorem ifAdmissible_of_admissible {i : Instr} {s : State} (h : Admissible i s) (r : Result State) : ifAdmissible i s r = r := by
  simp only [ifAdmissible, h.1, h.2]

/-- Only an admissible instruction answers a next state. -/
theorem ifAdmissible_eq_next {i : Instr} {s t : State} {r : Result State} :
    ifAdmissible i s r = .next t ↔ Admissible i s ∧ r = .next t := by
  simp only [ifAdmissible, Admissible, Instr.WellFormed]
  cases h : i.illFormed? with
  | some w => simp
  | none => cases h' : s.env.unresolved i.labels <;> simp

/-- Only an admissible instruction faults. -/
theorem ifAdmissible_eq_fault {i : Instr} {s : State} {r : Result State} {f : Fault} :
    ifAdmissible i s r = .fault f ↔ Admissible i s ∧ r = .fault f := by
  simp only [ifAdmissible, Admissible, Instr.WellFormed]
  cases h : i.illFormed? with
  | some w => simp
  | none => cases h' : s.env.unresolved i.labels <;> simp

/-- The two refusals of admission, and nothing else of it. -/
theorem ifAdmissible_eq_refused {i : Instr} {s : State} {r : Result State} {q : Refusal} :
    ifAdmissible i s r = .refused q ↔
      (∃ w, i.illFormed? = some w ∧ q = .illFormed w) ∨
      (i.WellFormed ∧ ∃ l, s.env.unresolved i.labels = some l ∧ q = .unresolvedLabel l) ∨
      (Admissible i s ∧ r = .refused q) := by
  simp only [ifAdmissible, Admissible, Instr.WellFormed]
  cases h : i.illFormed? with
  | some w => simp [eq_comm]
  | none => cases h' : s.env.unresolved i.labels <;> simp [eq_comm]

/-- Every meaning passes through admission. -/
theorem exec_eq_ifAdmissible (i : Instr) (s : State) : ∃ r, exec i s = ifAdmissible i s r := by
  cases i <;> exact ⟨_, rfl⟩

/-- Labels are resolved exactly when `lbl` gives each an address (R95). -/
theorem unresolved_eq_none {e : Env} {ls : List Label} : e.unresolved ls = none ↔ ∀ l ∈ ls, ∃ a, e.label? l = some a := by
  simp [Env.unresolved, List.find?_eq_none, Option.ne_none_iff_exists']

/-! ### Access checks and memory (R63) -/

/-- The access check passes exactly on aligned addresses that `DataValid` admits. -/
theorem accessFault_eq_none {e : Env} {a : Word} :
    e.accessFault a = none ↔ aligned a = true ∧ e.dataValid a = true := by
  simp only [Env.accessFault]
  cases aligned a <;> cases e.dataValid a <;> simp

/-- The two faults of the access check, `Misaligned` first (R244). -/
theorem accessFault_eq_some {e : Env} {a : Word} {f : Fault} :
    e.accessFault a = some f ↔
      (aligned a = false ∧ f = .misaligned a) ∨
      (aligned a = true ∧ e.dataValid a = false ∧ f = .invalidAddress a) := by
  simp only [Env.accessFault]
  cases aligned a <;> cases e.dataValid a <;> simp [eq_comm]

/-- What holds no data because instructions stand there (R7, R67, D9). -/
theorem inCode_eq_true {e : Env} {a : Word} :
    e.inCode a = true ↔ ∃ p ∈ e.prog, a = p.1 ∨ e.codeExtent = .slots ∧ (a - p.1).toNat < e.ilen := by
  simp [Env.inCode]

/-- Everything `DataValid` asks of an address: outside the text, and inside a window where there are windows (R67, R69). -/
theorem dataValid_eq_true {e : Env} {a : Word} :
    e.dataValid a = true ↔
      e.inCode a = false ∧
        ∀ ws, e.dataWindows = some ws → ∃ w ∈ ws, w.first.toNat ≤ a.toNat ∧ a.toNat ≤ w.last.toNat := by
  cases h : e.dataWindows <;> simp [Env.dataValid, Window.admits, h]

/-- `DataValid` admits no address of the text (R67, D9). -/
theorem inCode_of_dataValid {e : Env} {a : Word} (h : e.dataValid a = true) : e.inCode a = false := by
  exact (dataValid_eq_true.mp h).1

theorem memRead_of_ok {s : State} {a : Word} (h : s.env.accessFault a = none) :
    s.memRead a = .next (s.mem.readWord a.toNat) := by simp only [State.memRead, h]

theorem memRead_of_fault {s : State} {a : Word} {f : Fault} (h : s.env.accessFault a = some f) :
    s.memRead a = .fault f := by simp only [State.memRead, h, raise]

theorem memRead_eq_next {s : State} {a v : Word} :
    s.memRead a = .next v ↔ s.env.accessFault a = none ∧ v = s.mem.readWord a.toNat := by
  cases h : s.env.accessFault a <;> simp [State.memRead, h, raise, eq_comm]

theorem memRead_eq_fault {s : State} {a : Word} {f : Fault} :
    s.memRead a = .fault f ↔ s.env.accessFault a = some f := by
  cases h : s.env.accessFault a <;> simp [State.memRead, h]

@[simp] theorem memRead_ne_refused (s : State) (a : Word) (q : Refusal) : s.memRead a ≠ .refused q := by
  cases h : s.env.accessFault a <;> simp [State.memRead, h]

theorem memWrite_of_ok {s : State} {a : Word} (v : Word) (h : s.env.accessFault a = none) :
    s.memWrite a v = .next (s.withMem (s.mem.writeWord a.toNat v)) := by simp only [State.memWrite, h]

theorem memWrite_of_fault {s : State} {a : Word} {f : Fault} (v : Word) (h : s.env.accessFault a = some f) :
    s.memWrite a v = .fault f := by simp only [State.memWrite, h, raise]

theorem memWrite_eq_next {s t : State} {a v : Word} :
    s.memWrite a v = .next t ↔ s.env.accessFault a = none ∧ t = s.withMem (s.mem.writeWord a.toNat v) := by
  cases h : s.env.accessFault a <;> simp [State.memWrite, h, raise, eq_comm]

theorem memWrite_eq_fault {s : State} {a v : Word} {f : Fault} :
    s.memWrite a v = .fault f ↔ s.env.accessFault a = some f := by
  cases h : s.env.accessFault a <;> simp [State.memWrite, h]

@[simp] theorem memWrite_ne_refused (s : State) (a v : Word) (q : Refusal) : s.memWrite a v ≠ .refused q := by
  cases h : s.env.accessFault a <;> simp [State.memWrite, h]

/-! ### Operands (R96, R97) -/

theorem val_of_mem {s : State} {i : Ind} (h : s.env.accessFault (ea s i) = none) :
    val s (.ind i) = .next (s.mem.readWord (ea s i).toNat) := memRead_of_ok h

@[simp] theorem val_imm (s : State) (n : Word) : val s (.imm n) = .next n := rfl
@[simp] theorem val_lbl (s : State) (l : Label) : val s (.lbl l) = .next (s.env.labelAddr l) := rfl
@[simp] theorem val_reg (s : State) (r : Reg) : val s (.reg r) = .next (s.getReg r) := rfl

/-- The value of an operand faults exactly where its access does, and is never refused. -/
theorem val_cases (s : State) (o : Operand) :
    (operandFault s o = none ∧ ∃ v, val s o = .next v) ∨ (∃ f, operandFault s o = some f ∧ val s o = .fault f) := by
  cases o with
  | ind i =>
    cases h : s.env.accessFault (ea s i) with
    | none => exact .inl ⟨h, _, val_of_mem h⟩
    | some f => exact .inr ⟨f, h, memRead_of_fault h⟩
  | imm n => exact .inl ⟨rfl, n, rfl⟩
  | lbl l => exact .inl ⟨rfl, _, rfl⟩
  | reg r => exact .inl ⟨rfl, _, rfl⟩

theorem val_eq_fault {s : State} {o : Operand} {f : Fault} : val s o = .fault f ↔ operandFault s o = some f := by
  rcases val_cases s o with ⟨h, v, hv⟩ | ⟨g, h, hv⟩ <;> simp [h, hv, eq_comm]

theorem val_of_ok {s : State} {o : Operand} (h : operandFault s o = none) : ∃ v, val s o = .next v := by
  rcases val_cases s o with ⟨_, hv⟩ | ⟨g, h', _⟩
  · exact hv
  · simp [h] at h'

theorem operandFault_of_val {s : State} {o : Operand} {v : Word} (h : val s o = .next v) : operandFault s o = none := by
  rcases val_cases s o with ⟨h', _⟩ | ⟨g, _, h'⟩
  · exact h'
  · simp [h] at h'

@[simp] theorem val_ne_refused (s : State) (o : Operand) (q : Refusal) : val s o ≠ .refused q := by
  rcases val_cases s o with ⟨_, v, hv⟩ | ⟨g, _, hv⟩ <;> simp [hv]

/-- The value of a location is what its place holds. -/
theorem val_eq_content {s : State} {o : Operand} {p : Place} (hp : placeOf s o = some p) (h : operandFault s o = none) :
    val s o = .next (s.content p) := by
  cases o with
  | reg r =>
    simp only [placeOf, Option.some.injEq] at hp
    subst hp
    rfl
  | ind i =>
    simp only [placeOf, Option.some.injEq] at hp
    subst hp
    exact val_of_mem h
  | imm n => simp [placeOf] at hp
  | lbl l => simp [placeOf] at hp

/-- A location denotes a place. -/
theorem placeOf_of_isLoc {o : Operand} (h : o.isLoc = true) (s : State) : ∃ p, placeOf s o = some p := by
  cases o <;> simp_all [Operand.isLoc, placeOf]

/-- An effective address depends on the registers and the labels only. -/
theorem ea_congr {s t : State} (hr : ∀ r, t.getReg r = s.getReg r) (he : t.env = s.env) (i : Ind) : ea t i = ea s i := by
  unfold ea
  simp only [hr, he]

/-- Moving ESP does not move an address whose base and index are not ESP. -/
theorem ea_setReg_esp {s : State} {i : Ind} (v : Word) (hb : i.base ≠ some .esp) (hi : i.indexOk = true) :
    ea (s.setReg .esp v) i = ea s i := by
  obtain ⟨b, x, d⟩ := i
  have hx : ∀ k, x ≠ some (.esp, k) := by
    intro k hk
    subst hk
    simp [Ind.indexOk] at hi
  have h1 : ∀ r, b = some r → (s.setReg .esp v).getReg r = s.getReg r := by
    intro r hr
    rw [State.getReg_setReg, if_neg]
    rintro rfl
    exact hb hr
  have h2 : ∀ r k, x = some (r, k) → (s.setReg .esp v).getReg r = s.getReg r := by
    intro r k hr
    rw [State.getReg_setReg, if_neg]
    rintro rfl
    exact hx k hr
  cases b with
  | none =>
    cases x with
    | none => simp [ea]
    | some rk => obtain ⟨r, k⟩ := rk; simp [ea, h2 r k rfl]
  | some r0 =>
    cases x with
    | none => simp [ea, h1 r0 rfl]
    | some rk => obtain ⟨r, k⟩ := rk; simp [ea, h1 r0 rfl, h2 r k rfl]

/-- What a store answers (R97): the register or the word is written, or the access faults. -/
theorem store_eq_next {s t : State} {d : Operand} {v : Word} :
    store s d v = .next t ↔
      (∃ r, d = .reg r ∧ t = s.setReg r v) ∨
      (∃ i, d = .ind i ∧ s.env.accessFault (ea s i) = none ∧ t = s.withMem (s.mem.writeWord (ea s i).toNat v)) := by
  cases d with
  | reg r => simp [store, eq_comm]
  | ind i => simp [store, memWrite_eq_next]
  | imm n => simp [store]
  | lbl l => simp [store]

theorem store_eq_fault {s : State} {d : Operand} {v : Word} {f : Fault} :
    store s d v = .fault f ↔ operandFault s d = some f := by
  cases d <;> simp [store, operandFault, memWrite_eq_fault]

theorem store_ne_refused {d : Operand} (h : d.isLoc = true) (s : State) (v : Word) (q : Refusal) :
    store s d v ≠ .refused q := by
  cases d <;> simp_all [store, Operand.isLoc]

/-- Where a store succeeds, it writes its place and leaves everything else alone. -/
theorem store_of_ok {s : State} {d : Operand} {p : Place} (v : Word) (hp : placeOf s d = some p)
    (h : operandFault s d = none) (hm : s.mem.wf = true) :
    ∃ t, store s d v = .next t ∧ t.content p = v ∧ OnlyWrites s t [p] ∧ t.mem.wf = true ∧
      t.pc = s.pc ∧ t.flags = s.flags ∧ t.draws = s.draws := by
  cases d with
  | reg r =>
    simp only [placeOf, Option.some.injEq] at hp
    subst hp
    refine ⟨s.setReg r v, rfl, by simp [State.content], ⟨fun q hq => ?_, fun x _ => rfl, rfl⟩, hm, rfl, rfl, rfl⟩
    rw [State.getReg_setReg, if_neg]
    simpa using hq
  | ind i =>
    simp only [placeOf, Option.some.injEq] at hp
    subst hp
    simp only [operandFault] at h
    have hb := aligned_bound (accessFault_eq_none.mp h).1
    refine ⟨_, memWrite_of_ok v h, Memory.readWord_writeWord_same v hm hb, ⟨fun q _ => rfl, fun x hx => ?_, rfl⟩,
      Memory.wf_writeWord v hm hb, rfl, rfl, rfl⟩
    have := hx (ea s i) (by simp)
    exact Memory.readByte_writeWord_ne _ _ (by simp only [InWord] at this; omega)
  | imm n => simp [placeOf] at hp
  | lbl l => simp [placeOf] at hp

/-- Read, modify, write: where DEST is a location and its access succeeds, the place takes the new value, the flags are as
computed, EIP falls through, and everything else stays. -/
theorem modifyDest_of_ok {s : State} {d : Operand} {p : Place} (g : Word → Word) (fl : Word → Flags)
    (hp : placeOf s d = some p) (h : operandFault s d = none) (hm : s.mem.wf = true) :
    ∃ t, modifyDest s d g fl = .next t ∧ t.content p = g (s.content p) ∧ t.flags = fl (s.content p) ∧ t.pc = s.npc ∧
      t.draws = s.draws ∧ OnlyWrites s t [p] ∧ t.mem.wf = true := by
  obtain ⟨u, hu, hc, ho, hw, hpc, hf, hd⟩ := store_of_ok (g (s.content p)) hp h hm
  refine ⟨(u.withFlags (fl (s.content p))).advance, ?_, ?_, rfl, ?_, hd, ?_, hw⟩
  · simp only [modifyDest, val_eq_content hp h, andThen_next, hu]
  · cases p <;> exact hc
  · simp [State.npc, hpc, ho.2.2]
  · exact ho

/-- Read, modify, write faults exactly where DEST's access does. -/
theorem modifyDest_eq_fault {s : State} {d : Operand} {g : Word → Word} {fl : Word → Flags} {f : Fault} :
    modifyDest s d g fl = .fault f ↔ operandFault s d = some f := by
  rcases val_cases s d with ⟨h, v, hv⟩ | ⟨g', h, hv⟩
  · simp [modifyDest, hv, andThen_eq_fault, store_eq_fault, h]
  · simp [modifyDest, hv, h]

theorem modifyDest_ne_refused {d : Operand} (hd : d.isLoc = true) (s : State) (g : Word → Word) (fl : Word → Flags)
    (q : Refusal) : modifyDest s d g fl ≠ .refused q := by
  simp only [modifyDest, ne_eq, andThen_eq_refused]
  rintro (h | ⟨a, _, h | ⟨t, _, h⟩⟩)
  · exact val_ne_refused s d q h
  · exact store_ne_refused hd s _ q h
  · simp at h

/-- What a read-modify-write can answer, whatever DEST: one store and new flags. -/
theorem modifyDest_eq_next {s t : State} {d : Operand} {g : Word → Word} {fl : Word → Flags} :
    modifyDest s d g fl = .next t ↔
      ∃ x u, val s d = .next x ∧ store s d (g x) = .next u ∧ t = (u.withFlags (fl x)).advance := by
  simp only [modifyDest, andThen_eq_next]
  constructor
  · rintro ⟨x, hx, u, hu, ht⟩
    exact ⟨x, u, hx, hu, by simpa using ht.symm⟩
  · rintro ⟨x, u, hx, hu, rfl⟩
    exact ⟨x, hx, u, hu, rfl⟩

/-! ### Shift amounts (R170) -/

/-- What the amount of a shift can be: the operand, or its low five bits under `mask5`. -/
theorem shiftAmount_eq_next {s : State} {a : Operand} {n : Nat} :
    shiftAmount s a = .next n ↔
      ∃ w, val s a = .next w ∧
        ((w.toNat ≤ 31 ∧ n = w.toNat) ∨ (31 < w.toNat ∧ s.env.shiftAmt = .mask5 ∧ n = w.toNat % 32)) := by
  simp only [shiftAmount, andThen_eq_next]
  refine exists_congr fun w => and_congr_right fun _ => ?_
  by_cases h : w.toNat ≤ 31
  · simp [h, eq_comm, Nat.not_lt.mpr h]
  · cases hp : s.env.shiftAmt <;> simp [h, raise, eq_comm, Nat.lt_of_not_le h]

/-- The amount is always at most 31. -/
theorem shiftAmount_le {s : State} {a : Operand} {n : Nat} (h : shiftAmount s a = .next n) : n ≤ 31 := by
  obtain ⟨w, _, hn⟩ := shiftAmount_eq_next.mp h
  rcases hn with ⟨h1, hn⟩ | ⟨_, _, hn⟩
  · rw [hn]
    exact h1
  · rw [hn]
    have := Nat.mod_lt w.toNat (show 0 < 32 by decide)
    omega

/-- A well-formed amount never touches memory. -/
theorem operandFault_of_isAmount {a : Operand} (h : a.isAmount = true) (s : State) : operandFault s a = none := by
  cases a with
  | ind i => simp [Operand.isAmount] at h
  | imm n => rfl
  | lbl l => rfl
  | reg r => rfl

theorem shiftAmount_eq_fault {s : State} {a : Operand} {f : Fault} (ha : a.isAmount = true) :
    shiftAmount s a = .fault f ↔
      ∃ w, val s a = .next w ∧ 31 < w.toNat ∧ s.env.shiftAmt = .fault ∧ f = .shiftAmount w.toNat := by
  obtain ⟨w, hw⟩ := val_of_ok (operandFault_of_isAmount ha s)
  by_cases h : w.toNat ≤ 31
  · simp [shiftAmount, hw, h, Nat.not_lt.mpr h]
  · cases hp : s.env.shiftAmt <;> simp [shiftAmount, hw, h, hp, raise, eq_comm, Nat.lt_of_not_le h]

@[simp] theorem shiftAmount_ne_refused (s : State) (a : Operand) (q : Refusal) : shiftAmount s a ≠ .refused q := by
  simp only [shiftAmount, ne_eq, andThen_eq_refused]
  rintro (h | ⟨w, _, h⟩)
  · exact val_ne_refused s a q h
  · split at h
    · simp at h
    · split at h <;> simp at h

/-! ### The stack (R76) -/

/-- What a push answers: the word stored below ESP and ESP moved onto it, or the store's fault. -/
theorem pushWord_eq_next {s t : State} {v : Word} :
    s.pushWord v = .next t ↔
      s.env.accessFault s.pushAddr = none ∧
        t = (s.withMem (s.mem.writeWord s.pushAddr.toNat v)).setReg .esp s.pushAddr := by
  simp only [State.pushWord, andThen_eq_next, memWrite_eq_next]
  constructor
  · rintro ⟨u, ⟨h, rfl⟩, ht⟩
    exact ⟨h, by simpa using ht.symm⟩
  · rintro ⟨h, rfl⟩
    exact ⟨_, ⟨h, rfl⟩, rfl⟩

theorem pushWord_eq_fault {s : State} {v : Word} {f : Fault} :
    s.pushWord v = .fault f ↔ s.env.accessFault s.pushAddr = some f := by
  cases h : s.env.accessFault s.pushAddr <;> simp [State.pushWord, State.memWrite, h]

@[simp] theorem pushWord_ne_refused (s : State) (v : Word) (q : Refusal) : s.pushWord v ≠ .refused q := by
  cases h : s.env.accessFault s.pushAddr <;> simp [State.pushWord, State.memWrite, h]

/-! ### The fetch (R26) -/

theorem fetch_eq_next {s : State} {i : Instr} :
    s.fetch = .next i ↔ s.pc ≠ s.env.exitAddr ∧ s.env.instrAt s.pc = some i := by
  simp only [State.fetch]
  by_cases h : s.pc = s.env.exitAddr
  · simp [h]
  · cases h' : s.env.instrAt s.pc <;> simp [h]

theorem fetch_eq_fault {s : State} {f : Fault} :
    s.fetch = .fault f ↔ s.pc ≠ s.env.exitAddr ∧ s.env.instrAt s.pc = none ∧ f = .noInstruction s.pc := by
  simp only [State.fetch]
  by_cases h : s.pc = s.env.exitAddr
  · simp [h]
  · cases h' : s.env.instrAt s.pc <;> simp [h, raise, eq_comm]

theorem fetch_eq_refused {s : State} {q : Refusal} :
    s.fetch = .refused q ↔ s.pc = s.env.exitAddr ∧ q = .runEnded := by
  simp only [State.fetch]
  by_cases h : s.pc = s.env.exitAddr
  · simp [h, eq_comm]
  · cases h' : s.env.instrAt s.pc <;> simp [h]

/-- A step answers a next state exactly when it fetches an instruction and that instruction does. -/
theorem step_eq_next {s t : State} :
    step s = .next t ↔ s.pc ≠ s.env.exitAddr ∧ ∃ i, s.env.instrAt s.pc = some i ∧ exec i s = .next t := by
  simp only [step]
  rw [show andThen s.fetch (fun i => exec i s) = .next t ↔ _ from andThen_eq_next]
  simp only [fetch_eq_next]
  constructor
  · rintro ⟨i, ⟨h1, h2⟩, h3⟩
    exact ⟨h1, i, h2, h3⟩
  · rintro ⟨h1, i, h2, h3⟩
    exact ⟨i, ⟨h1, h2⟩, h3⟩

end Sys2Proof.Machine
end

