-- ==== Sys2Proof/Laws/PerInstr.lean ====
section
/-! SUPPORT. Statements made of every instruction, one lemma per constructor. The family `Rebuild` says that an
instruction's written arguments fill the typed positions of its constructor and make that instruction again (R91, R104). -/

namespace Sys2Proof.Laws.Rebuild

/-- The instruction's own arguments, under its own name, build it. -/
def Statement (i : Instr) : Prop := build i.opcode i.args = some i

theorem neg (d : Operand) : Statement (.neg d) := rfl
theorem add (d s : Operand) : Statement (.add d s) := rfl
theorem sub (d s : Operand) : Statement (.sub d s) := rfl
theorem imul (d : Reg) (s : Operand) : Statement (.imul d s) := rfl
theorem not (d : Operand) : Statement (.not d) := rfl
theorem and (d s : Operand) : Statement (.and d s) := rfl
theorem or (d s : Operand) : Statement (.or d s) := rfl
theorem xor (d s : Operand) : Statement (.xor d s) := rfl
theorem sar (d a : Operand) : Statement (.sar d a) := rfl
theorem shl (d a : Operand) : Statement (.shl d a) := rfl
theorem shr (d a : Operand) : Statement (.shr d a) := rfl
theorem setb (d : Operand) (c : CC) : Statement (.setb d c) := rfl
theorem lea (d : Reg) (i : Ind) : Statement (.lea d i) := rfl
theorem mov (d s : Operand) : Statement (.mov d s) := rfl
theorem push (s : Operand) : Statement (.push s) := rfl
theorem pop (d : Operand) : Statement (.pop d) := rfl
theorem cmp (a b : Operand) : Statement (.cmp a b) := rfl
theorem jmp (s : Operand) : Statement (.jmp s) := rfl
theorem call (s : Operand) : Statement (.call s) := rfl
theorem ret : Statement .ret := rfl
theorem j (c : CC) (l : Label) : Statement (.j c l) := rfl

end Sys2Proof.Laws.Rebuild
end

