-- ==== Sys2Proof/Tests/Slice0.lean ====
section
/-! SUPPORT. The model's own tests: one ill-formed term per static check, every constructor's term written out from R91 and
R111, one or two steps per instruction with results taken from spec/95_test_vectors.md, and a witness for every statement
that has hypotheses. -/

namespace Sys2Proof.Tests

open Sys2Proof Sys2Proof.Machine Sys2Proof.Claims

/-! ### Helpers -/

/-- What `f` reads in the state answered, if one was. -/
def probe {α : Type} (r : Result State) (f : State → α) : Option α :=
  match r with
  | .next t => some (f t)
  | .fault _ => none
  | .refused _ => none

/-- The fault answered, if one was. -/
def faultOf {α : Type} (r : Result α) : Option Fault :=
  match r with
  | .fault f => some f
  | .next _ => none
  | .refused _ => none

/-- The refusal answered, if one was. -/
def refusalOf {α : Type} (r : Result α) : Option Refusal :=
  match r with
  | .refused q => some q
  | .next _ => none
  | .fault _ => none

/-- The decoder's error, if it refused. -/
def errorOf (r : Except DecodeError Instr) : Option DecodeError :=
  match r with
  | .error e => some e
  | .ok _ => none

def arr : Label := ⟨"arr"⟩
def fact : Label := ⟨"fact"⟩
def done : Label := ⟨"done"⟩
def nowhere : Label := ⟨"nowhere"⟩

/-- Indirect addresses by their parts. -/
def atReg (r : Reg) : Ind := ⟨some r, none, none⟩
def atDisp (r : Reg) (n : Word) : Ind := ⟨some r, none, some (.imm n)⟩
def scaled (b : Option Reg) (r : Reg) (k : Word) (d : Option Disp) : Ind := ⟨b, some (r, k), d⟩

/-- The parameters of spec/95_test_vectors.md section 2: eight instructions from 0x1000 on, and its labels. -/
def env0 : Env :=
  { Env.reset with
    prog := [(0x1000#32, .ret), (0x1004#32, .ret), (0x1008#32, .ret), (0x100c#32, .ret), (0x1010#32, .ret),
      (0x1014#32, .ret), (0x1018#32, .ret), (0x101c#32, .ret)]
    lbl := [(arr, 0x2000#32), (fact, 0x1010#32), (done, 0x101c#32)] }

/-- The state the tests start from. -/
def s0 : State := { State.reset with env := env0 }

def withEsp (a : Word) : State := s0.setReg .esp a
def withEax (v : Word) : State := s0.setReg .eax v
def put (s : State) (a v : Word) : State := s.withMem (s.mem.writeWord a.toNat v)
def setFlags (s : State) (o g z : Bool) : State := s.withFlags { OF := o, SF := g, ZF := z }
def under (p : EspOperandPolicy) (s : State) : State := { s with env := { s.env with espOperand := p } }
def mask5 (s : State) : State := { s with env := { s.env with shiftAmt := .mask5 } }
def assign (s : State) : State := { s with env := { s.env with shlOf := .assign } }
def placed (i : Instr) : State := s0.withInstr i
def flagsOf (s : State) : Bool × Bool × Bool := (s.flags.OF, s.flags.SF, s.flags.ZF)
def wordAt (a : Word) (s : State) : Word := s.mem.readWord a.toNat

/-! ### WellFormed smoke: an ill-formed term for each check, each with its nearest accepted neighbour (95 section 2.14) -/

theorem test_wf_index_esp :
    (Instr.lea .eax (scaled none .esp 1 none)).illFormed? = some .indexEsp ∧
    (Instr.mov (.reg .eax) (.ind (scaled (some .esp) .eax 4 none))).illFormed? = none := by decide

theorem test_wf_index_esp_each_position :
    (Instr.neg (.ind (scaled none .esp 0 none))).illFormed? = some .indexEsp ∧
    (Instr.push (.ind (scaled none .esp 4 none))).illFormed? = some .indexEsp ∧
    (Instr.add (.reg .eax) (.ind (scaled none .esp 4 none))).illFormed? = some .indexEsp ∧
    (Instr.add (.ind (scaled none .esp 4 none)) (.reg .eax)).illFormed? = some .indexEsp ∧
    (Instr.shl (.ind (scaled none .esp 4 none)) (.imm 1)).illFormed? = some .indexEsp ∧
    (Instr.cmp (.imm 1) (.ind (scaled none .esp 4 none))).illFormed? = some .indexEsp := by decide

theorem test_wf_two_memory :
    (Instr.mov (.ind (atReg .eax)) (.ind (atReg .ebx))).illFormed? = some .twoMemory ∧
    (Instr.cmp (.ind (atReg .eax)) (.ind (atReg .ebx))).illFormed? = some .twoMemory ∧
    (Instr.cmp (.imm 1) (.imm 2)).illFormed? = none := by decide

theorem test_wf_shift_amount :
    (Instr.sar (.reg .eax) (.reg .ebx)).illFormed? = some .shiftAmountForm ∧
    (Instr.shl (.reg .eax) (.ind (atReg .ebx))).illFormed? = some .shiftAmountForm ∧
    (Instr.shr (.reg .eax) (.lbl arr)).illFormed? = some .shiftAmountForm ∧
    (Instr.sar (.reg .ecx) (.reg .ecx)).illFormed? = none ∧
    (Instr.shl (.ind (atReg .ecx)) (.reg .ecx)).illFormed? = none := by decide

theorem test_wf_dest_not_location :
    (Instr.add (.imm 1) (.reg .eax)).illFormed? = some .destNotLocation ∧
    (Instr.pop (.imm 3)).illFormed? = some .destNotLocation ∧
    (Instr.pop (.lbl arr)).illFormed? = some .destNotLocation ∧
    (Instr.setb (.imm 0) .eq).illFormed? = some .destNotLocation ∧
    (Instr.sar (.imm 0) (.imm 1)).illFormed? = some .destNotLocation := by decide

/-! ### Decoding: every constructor's term, written out from R91, R92 and R111 -/

theorem test_decode_neg : decode ⟨"Neg", [.opnd (.reg .eax)]⟩ = .ok (.neg (.reg .eax)) := by decide
theorem test_decode_add :
    decode ⟨"Add", [.opnd (.reg .eax), .opnd (.imm 5)]⟩ = .ok (.add (.reg .eax) (.imm 5)) := by decide
theorem test_decode_sub :
    decode ⟨"Sub", [.opnd (.reg .eax), .opnd (.reg .ebx)]⟩ = .ok (.sub (.reg .eax) (.reg .ebx)) := by decide
theorem test_decode_imul :
    decode ⟨"Imul", [.reg .eax, .opnd (.reg .ebx)]⟩ = .ok (.imul .eax (.reg .ebx)) := by decide
theorem test_decode_not :
    decode ⟨"Not", [.opnd (.ind ⟨some .ebp, none, some (.imm 8)⟩)]⟩ = .ok (.not (.ind ⟨some .ebp, none, some (.imm 8)⟩)) := by
  decide
theorem test_decode_and :
    decode ⟨"And", [.opnd (.reg .ecx), .opnd (.imm 0xffffffff)]⟩ = .ok (.and (.reg .ecx) (.imm 0xffffffff)) := by decide
theorem test_decode_or :
    decode ⟨"Or", [.opnd (.ind ⟨none, none, none⟩), .opnd (.reg .esi)]⟩ = .ok (.or (.ind ⟨none, none, none⟩) (.reg .esi)) := by
  decide
theorem test_decode_xor :
    decode ⟨"Xor", [.opnd (.reg .edi), .opnd (.lbl ⟨"arr"⟩)]⟩ = .ok (.xor (.reg .edi) (.lbl ⟨"arr"⟩)) := by decide
theorem test_decode_sar :
    decode ⟨"Sar", [.opnd (.reg .eax), .opnd (.reg .ecx)]⟩ = .ok (.sar (.reg .eax) (.reg .ecx)) := by decide
theorem test_decode_shl :
    decode ⟨"Shl", [.opnd (.reg .eax), .opnd (.imm 1)]⟩ = .ok (.shl (.reg .eax) (.imm 1)) := by decide
theorem test_decode_shr :
    decode ⟨"Shr", [.opnd (.ind ⟨some .ebx, none, none⟩), .opnd (.imm 4)]⟩ =
      .ok (.shr (.ind ⟨some .ebx, none, none⟩) (.imm 4)) := by decide
theorem test_decode_setb :
    decode ⟨"Setb", [.opnd (.reg .esi), .cc .eq]⟩ = .ok (.setb (.reg .esi) .eq) := by decide
theorem test_decode_lea :
    decode ⟨"Lea", [.reg .ebx, .ind ⟨some .eax, some (.eax, 2), some (.imm 1)⟩]⟩ =
      .ok (.lea .ebx ⟨some .eax, some (.eax, 2), some (.imm 1)⟩) := by decide
theorem test_decode_mov :
    decode ⟨"Mov", [.opnd (.reg .ebp), .opnd (.reg .esp)]⟩ = .ok (.mov (.reg .ebp) (.reg .esp)) := by decide
theorem test_decode_push : decode ⟨"Push", [.opnd (.lbl ⟨"arr"⟩)]⟩ = .ok (.push (.lbl ⟨"arr"⟩)) := by decide
theorem test_decode_pop : decode ⟨"Pop", [.opnd (.reg .ebx)]⟩ = .ok (.pop (.reg .ebx)) := by decide
theorem test_decode_cmp :
    decode ⟨"Cmp", [.opnd (.imm 1), .opnd (.imm 2)]⟩ = .ok (.cmp (.imm 1) (.imm 2)) := by decide
theorem test_decode_jmp :
    decode ⟨"Jmp", [.opnd (.ind ⟨none, some (.ecx, 4), some (.lbl ⟨"tbl"⟩)⟩)]⟩ =
      .ok (.jmp (.ind ⟨none, some (.ecx, 4), some (.lbl ⟨"tbl"⟩)⟩)) := by decide
theorem test_decode_call : decode ⟨"Call", [.opnd (.lbl ⟨"fact"⟩)]⟩ = .ok (.call (.lbl ⟨"fact"⟩)) := by decide
theorem test_decode_ret : decode ⟨"Ret", []⟩ = .ok .ret := by decide
theorem test_decode_j : decode ⟨"J", [.cc .slt, .label ⟨"loop"⟩]⟩ = .ok (.j .slt ⟨"loop"⟩) := by decide

/-- Not terms of X86lite: wrong kinds of argument, too many, and names that are no instruction (R104 to R106, C1, R112). -/
theorem test_decode_refuses :
    errorOf (decode ⟨"Imul", [.opnd (.reg .eax), .opnd (.reg .ebx)]⟩) = some (.operandKinds .imul) ∧
    errorOf (decode ⟨"Lea", [.reg .eax, .opnd (.reg .ebx)]⟩) = some (.operandKinds .lea) ∧
    errorOf (decode ⟨"J", [.cc .eq, .opnd (.reg .eax)]⟩) = some (.operandKinds .j) ∧
    errorOf (decode ⟨"Ret", [.opnd (.imm 4)]⟩) = some (.operandKinds .ret) ∧
    errorOf (decode ⟨"Idiv", [.opnd (.reg .eax)]⟩) = some (.unknownName "Idiv") ∧
    errorOf (decode ⟨"add", [.opnd (.reg .eax), .opnd (.imm 1)]⟩) = some (.unknownName "add") := by decide

/-! ### Steps, with results from spec/95_test_vectors.md -/

/-- 2.1: MIN_INT is its own negation, with OF; 5 becomes -5. -/
theorem test_neg_min_int :
    probe (exec (.neg (.reg .eax)) (withEax 0x80000000)) (fun t => (t.getReg .eax, flagsOf t)) =
      some (0x80000000#32, true, true, false) := by decide
theorem test_neg_five :
    probe (exec (.neg (.reg .eax)) (setFlags (withEax 5) true true true)) (fun t => (t.getReg .eax, flagsOf t)) =
      some (0xfffffffb#32, false, true, false) := by decide

/-- 2.2: MIN_INT + MIN_INT is 0, with OF and ZF together. -/
theorem test_add_min_min :
    probe (exec (.add (.reg .eax) (.reg .eax)) (withEax 0x80000000)) (fun t => (t.getReg .eax, flagsOf t)) =
      some (0x00000000#32, true, false, true) := by decide
/-- 2.10: read-modify-write on memory. -/
theorem test_add_memory :
    probe (exec (.add (.ind (atReg .ebx)) (.imm 1)) (put (s0.setReg .ebx 0x2000) 0x2000 0x7fffffff))
        (fun t => (wordAt 0x2000 t, flagsOf t, t.pc)) =
      some (0x80000000#32, (true, true, false), 0x1004#32) := by decide

/-- 2.3: -5 - 3 fits (C2); -1 - MIN_INT fits and sets OF all the same (C3). -/
theorem test_sub_c2 :
    probe (exec (.sub (.reg .eax) (.imm 3)) (withEax 0xfffffffb)) (fun t => (t.getReg .eax, flagsOf t)) =
      some (0xfffffff8#32, false, true, false) := by decide
theorem test_sub_c3 :
    probe (exec (.sub (.reg .eax) (.imm 0x80000000)) (withEax 0xffffffff)) (fun t => (t.getReg .eax, flagsOf t)) =
      some (0x7fffffff#32, true, false, false) := by decide

/-- 2.4: 46341 squared overflows; 65536 * -32768 = -2^31 does not. -/
theorem test_imul_overflow :
    probe (exec (.imul .eax (.reg .eax)) (withEax 0x0000b505)) (fun t => (t.getReg .eax, t.flags.OF, t.draws)) =
      some (0x80001219#32, true, 2) := by decide
theorem test_imul_fits :
    probe (exec (.imul .eax (.imm 0xffff8000)) (withEax 0x00010000)) (fun t => (t.getReg .eax, t.flags.OF)) =
      some (0x80000000#32, false) := by decide

/-- 2.5: Not writes no flag, even for a zero result. -/
theorem test_not_zero_result :
    probe (exec (.not (.reg .eax)) (setFlags (withEax 0xffffffff) true true false)) (fun t => (t.getReg .eax, flagsOf t)) =
      some (0x00000000#32, true, true, false) := by decide
theorem test_and :
    probe (exec (.and (.reg .eax) (.imm 0x0ff00ff0)) (setFlags (withEax 0xf0f0f0f0) true true true))
        (fun t => (t.getReg .eax, flagsOf t)) =
      some (0x00f000f0#32, false, false, false) := by decide
theorem test_or :
    probe (exec (.or (.reg .eax) (.imm 0x0ff00ff0)) (setFlags (withEax 0xf0f0f0f0) true false true))
        (fun t => (t.getReg .eax, flagsOf t)) =
      some (0xfff0fff0#32, false, true, false) := by decide
theorem test_xor_self :
    probe (exec (.xor (.reg .eax) (.reg .eax)) (setFlags (withEax 0x12345678) true true false))
        (fun t => (t.getReg .eax, flagsOf t)) =
      some (0x00000000#32, false, false, true) := by decide

/-- 2.6: -3 shifted right by 1 is -2 and OF is cleared; an amount of 32 faults, and is 0 under `mask5`. -/
theorem test_sar_floor :
    probe (exec (.sar (.reg .eax) (.imm 1)) (setFlags (withEax 0xfffffffd) true true true))
        (fun t => (t.getReg .eax, flagsOf t)) =
      some (0xfffffffe#32, false, true, false) := by decide
theorem test_sar_amount_32 :
    faultOf (exec (.sar (.reg .eax) (.imm 32)) s0) = some (.shiftAmount 32) ∧
    probe (exec (.sar (.reg .eax) (.imm 32)) (mask5 (setFlags (withEax 7) true true true)))
      (fun t => (t.getReg .eax, flagsOf t)) = some (7#32, true, true, true) := by decide
/-- 2.6: top two bits equal, amount 1: OF kept under `literal`, cleared under `assign`; and ECX as both operands. -/
theorem test_shl_policies :
    probe (exec (.shl (.reg .eax) (.imm 1)) (setFlags (withEax 0xc0000000) true true true))
        (fun t => (t.getReg .eax, flagsOf t)) = some (0x80000000#32, true, true, false) ∧
    probe (exec (.shl (.reg .eax) (.imm 1)) (assign (setFlags (withEax 0xc0000000) true true true)))
        (fun t => (t.getReg .eax, flagsOf t)) = some (0x80000000#32, false, true, false) := by decide
theorem test_shl_ecx_ecx :
    probe (exec (.shl (.reg .ecx) (.reg .ecx)) (s0.setReg .ecx 3)) (fun t => t.getReg .ecx) = some 0x18#32 := by decide
/-- 2.6: memory destination; amount 1 moves bit 31 to OF. -/
theorem test_shr_memory :
    probe (exec (.shr (.ind (atReg .ebx)) (.imm 4)) (setFlags (put (s0.setReg .ebx 0x2000) 0x2000 0x12345678) true true true))
        (fun t => (wordAt 0x2000 t, flagsOf t)) =
      some (0x01234567#32, true, false, false) := by decide
theorem test_shr_one :
    probe (exec (.shr (.reg .eax) (.imm 1)) (withEax 0x80000000)) (fun t => (t.getReg .eax, flagsOf t)) =
      some (0x40000000#32, true, false, false) := by decide

/-- 2.7: the whole low byte is replaced, the rest kept; the flags are kept. -/
theorem test_setb_memory :
    probe (exec (.setb (.ind (atReg .ebx)) .zero) (setFlags (put (s0.setReg .ebx 0x2000) 0x2000 0xcafe00aa) false false true))
        (fun t => (wordAt 0x2000 t, flagsOf t)) =
      some (0xcafe0001#32, false, false, true) := by decide
theorem test_setb_false :
    probe (exec (.setb (.reg .eax) .sge) (setFlags (withEax 0xabcdef12) true false false)) (fun t => t.getReg .eax) =
      some 0xabcdef00#32 := by decide

/-- 2.10: 12 + 24 + 1; a negative scale and an unaligned result are fine for Lea. -/
theorem test_lea_sum :
    probe (exec (.lea .ebx (scaled (some .eax) .eax 2 (some (.imm 1)))) (withEax 0xc)) (fun t => t.getReg .ebx) =
      some 0x25#32 := by decide
theorem test_lea_negative_scale :
    probe (exec (.lea .eax (scaled (some .ebx) .eax 0xffffffff none)) ((withEax 5).setReg .ebx 0x2000))
      (fun t => t.getReg .eax) = some 0x1ffb#32 := by decide

/-- 2.10: a label's contents against its address; address and value both from the old EAX. -/
theorem test_mov_label :
    probe (exec (.mov (.reg .eax) (.ind ⟨none, none, some (.lbl arr)⟩)) (put s0 0x2000 3)) (fun t => t.getReg .eax) =
      some 3#32 ∧
    probe (exec (.mov (.reg .eax) (.lbl arr)) (put s0 0x2000 3)) (fun t => t.getReg .eax) = some 0x2000#32 := by decide
theorem test_mov_store_own_address :
    probe (exec (.mov (.ind (atReg .eax)) (.reg .eax)) (withEax 0x2008)) (fun t => wordAt 0x2008 t) =
      some 0x2008#32 := by decide

/-- 2.11: the wrap at 0; under `sequential` and `before` the old and the new ESP. -/
theorem test_push_wraps :
    probe (exec (.push (.imm 1)) (withEsp 0)) (fun t => (t.getReg .esp, wordAt 0xfffffffc t)) =
      some (0xfffffffc#32, 1#32) := by decide
theorem test_push_esp :
    faultOf (exec (.push (.reg .esp)) (withEsp 0xffffc)) = some (.espOperand (.push (.reg .esp))) ∧
    probe (exec (.push (.ind (atDisp .esp 4))) (under .sequential (put (put (withEsp 0xffff8) 0xffff8 0xa) 0xffffc 0xb)))
      (fun t => (t.getReg .esp, wordAt 0xffff4 t)) = some (0xffff4#32, 0xa#32) ∧
    probe (exec (.push (.ind (atDisp .esp 4))) (under .before (put (put (withEsp 0xffff8) 0xffff8 0xa) 0xffffc 0xb)))
      (fun t => (t.getReg .esp, wordAt 0xffff4 t)) = some (0xffff4#32, 0xb#32) := by decide

/-- 2.11: ESP wraps; `Pop (Reg ESP)` and `Pop (Ind base=ESP)` under the two policies. -/
theorem test_pop_wraps :
    probe (exec (.pop (.reg .eax)) (put (withEsp 0xfffffffc) 0xfffffffc 5)) (fun t => (t.getReg .eax, t.getReg .esp)) =
      some (5#32, 0#32) := by decide
theorem test_pop_esp :
    probe (exec (.pop (.reg .esp)) (under .sequential (put (withEsp 0xffff8) 0xffff8 0x3000))) (fun t => t.getReg .esp) =
      some 0x3004#32 ∧
    probe (exec (.pop (.reg .esp)) (under .before (put (withEsp 0xffff8) 0xffff8 0x3000))) (fun t => t.getReg .esp) =
      some 0x3000#32 ∧
    probe (exec (.pop (.ind (atReg .esp))) (under .before (put (withEsp 0xffff8) 0xffff8 7)))
      (fun t => (wordAt 0xffffc t, t.getReg .esp)) = some (7#32, 0xffffc#32) := by decide

/-- 2.9: -1 against MIN_INT reports Slt and not Sge (C3); nothing but the flags changes. -/
theorem test_cmp_min_int :
    probe (exec (.cmp (.reg .eax) (.imm 0x80000000)) (withEax 0xffffffff))
        (fun t => (flagsOf t, t.flags.cond .slt, t.flags.cond .sge, t.getReg .eax)) =
      some ((true, false, false), true, false, 0xffffffff#32) := by decide
theorem test_cmp_immediates : probe (exec (.cmp (.imm 1) (.imm 2)) s0) flagsOf = some (false, true, false) := by decide

/-- 2.12: a jump table; a target is not checked by the jump. -/
theorem test_jmp_table :
    probe (exec (.jmp (.ind (scaled none .ecx 4 (some (.lbl arr))))) (put (s0.setReg .ecx 2) 0x2008 0x1014)) State.pc =
      some 0x1014#32 := by decide
theorem test_jmp_unchecked : probe (exec (.jmp (.reg .eax)) (withEax 0x1002)) State.pc = some 0x1002#32 := by decide

/-- 2.12: Call pushes the next instruction's address (C5); a push into the code region faults. -/
theorem test_call :
    probe (exec (.call (.lbl fact)) { withEsp 0xffff8 with pc := 0x1004#32 })
        (fun t => (t.pc, t.getReg .esp, wordAt 0xffff4 t)) = some (0x1010#32, 0xffff4#32, 0x1008#32) ∧
    faultOf (exec (.call (.lbl fact)) { withEsp 0x1008 with pc := 0x1004#32 }) = some (.invalidAddress 0x1004#32) := by decide
theorem test_call_esp_sequential :
    probe (exec (.call (.ind (atReg .esp))) (under .sequential { put (withEsp 0xffff8) 0xffff8 0x1010 with pc := 0x1004#32 }))
        (fun t => (t.pc, t.getReg .esp)) = some (0x1008#32, 0xffff4#32) := by decide

theorem test_ret :
    probe (exec .ret (put (withEsp 0xffff4) 0xffff4 0x1008)) (fun t => (t.pc, t.getReg .esp)) =
      some (0x1008#32, 0xffff8#32) := by decide
theorem test_ret_faults :
    faultOf (exec .ret (withEsp 0xffffa)) = some (.misaligned 0xffffa#32) ∧
    faultOf (exec .ret (withEsp 0x1000)) = some (.invalidAddress 0x1000#32) := by decide

theorem test_j_taken : probe (exec (.j .eq done) (setFlags s0 false false true)) State.pc = some 0x101c#32 := by decide
theorem test_j_fallthrough :
    probe (exec (.j .sgt done) (setFlags { s0 with pc := 0x1014#32 } true true true)) State.pc = some 0x1018#32 := by decide

/-- 2.8: the rows of the truth table in which SF, OF and ZF differ most. -/
theorem test_conditions :
    [CC.eq, .zero, .notEq, .notZero, .slt, .sge, .sle, .sgt].map (Flags.cond { OF := true, SF := true, ZF := true }) =
      [true, true, false, false, false, true, true, false] ∧
    [CC.eq, .zero, .notEq, .notZero, .slt, .sge, .sle, .sgt].map (Flags.cond { OF := false, SF := true, ZF := false }) =
      [false, false, true, true, true, false, true, false] := by decide

/-- 2.13: priorities. -/
theorem test_fault_priority :
    faultOf (exec (.sar (.ind (atReg .ebx)) (.imm 40)) (s0.setReg .ebx 0x2002)) = some (.shiftAmount 40) ∧
    faultOf (exec (.push (.ind (atReg .ebx))) ((withEsp 0xffffa).setReg .ebx 0x2002)) = some (.misaligned 0x2002#32) ∧
    faultOf (exec (.pop (.ind (atReg .ebx))) ((withEsp 0xffffa).setReg .ebx 0x2002)) = some (.misaligned 0xffffa#32) ∧
    faultOf (exec (.mov (.reg .eax) (.ind (atReg .ebx))) (s0.setReg .ebx 0x1002)) = some (.misaligned 0x1002#32) := by decide

/-- 2.13: the fetch. -/
theorem test_fetch :
    faultOf (step { s0 with pc := 0x1020#32 }) = some (.noInstruction 0x1020#32) ∧
    refusalOf (step { s0 with pc := 0xfffffff0#32 }) = some .runEnded := by decide

/-- 2.13: a narrowed `DataValid`; and a slot of 8 bytes holds two code words under R67, one under R7 and D9. -/
theorem test_data_valid :
    ({ env0 with dataWindows := some [⟨0x2000, 0x2ffc⟩, ⟨0xf0000, 0xffffc⟩] } : Env).accessFault 0x3000 =
      some (.invalidAddress 0x3000#32) ∧
    env0.accessFault 0x3000 = none ∧ env0.accessFault 0x1020 = none ∧
    ({ env0 with ilen := 8 } : Env).accessFault 0x1020 = some (.invalidAddress 0x1020#32) ∧
    ({ env0 with ilen := 8, codeExtent := .starts } : Env).accessFault 0x1020 = none ∧
    ({ env0 with ilen := 8, codeExtent := .starts } : Env).accessFault 0x101c = some (.invalidAddress 0x101c#32) := by decide

/-- Reset: fetching where no program has been loaded (log entry 2); one instruction placed is the one that runs. -/
theorem test_reset :
    faultOf (step State.reset) = some (.noInstruction 0x1000#32) ∧
    probe (step (State.reset.withInstr .ret)) (fun t => (t.pc, t.getReg .esp)) = some (0xfffffff0#32, 0x100000#32) := by decide

/-! ### Witnesses: for each statement with hypotheses, concrete data that meet all of them together, clause by clause -/

/-- An instruction with both operands in use, at the ends of what is well-formed. -/
def wide : Instr := .mov (.ind (scaled (some .esp) .ebp 0xffffffff (some (.lbl arr)))) (.reg .esp)

theorem witness_DecodeEncodeRoundTrip : wide.WellFormed := by decide

theorem witness_DecodeAcceptsOnlyEncodings : decode (encode wide) = .ok wide := by decide

theorem witness_IllFormedTermsRejected :
    "Cmp" ∈ ["Add", "Sub", "And", "Or", "Xor", "Mov", "Cmp"] ∧
    ((scaled none .esp 0 none).index = some (.esp, 0) ∧
      Arg.ind (scaled none .esp 0 none) ∈ (encode (.lea .eax (scaled none .esp 0 none))).args ∧
      Arg.opnd (.ind (scaled none .esp 0 none)) ∈ (encode (.pop (.ind (scaled none .esp 0 none)))).args) ∧
    (MeetsFormat (fun _ => True) (.cmp (.imm 0) (.ind (scaled none .esp 0 none))) ∧
      ¬ MeetsFormat IndexNotEsp (.cmp (.imm 0) (.ind (scaled none .esp 0 none)))) ∧
    ("Shr" ∈ ["Sar", "Shl", "Shr"] ∧ (Operand.reg .eax).isLoc = true ∧ (∀ w, Operand.reg .esp ≠ .imm w) ∧
      Operand.reg .esp ≠ .reg .ecx) ∧
    ("Sar" ∈ ["Add", "Sub", "And", "Or", "Xor", "Mov", "Sar", "Shl", "Shr"] ∧ (∀ r, Operand.imm 0 ≠ .reg r) ∧
      ∀ i, Operand.imm 0 ≠ .ind i) ∧
    ("Pop" ∈ ["Neg", "Not", "Pop"] ∧ (∀ r, Operand.lbl arr ≠ .reg r) ∧ ∀ i, Operand.lbl arr ≠ .ind i) ∧
    (∀ o : Opcode, o.name ≠ "Idiv") := by
  refine ⟨by decide, ⟨rfl, by decide, by decide⟩, ⟨by simp [MeetsFormat, BothMemory, IfInd], fun h => ?_⟩, ⟨by decide, rfl, by simp, by decide⟩, ⟨by decide, by simp, by simp⟩,
    ⟨by decide, by simp, by simp⟩, fun o => by cases o <;> decide⟩
  exact h.2.2 _ rfl 0 rfl

theorem witness_OnlyAdmissibleInstructionsExecute :
    (Instr.pop (.imm 0)).illFormed? = some .destNotLocation ∧
    ((Instr.jmp (.lbl nowhere)).WellFormed ∧ s0.env.unresolved (Instr.jmp (.lbl nowhere)).labels = some nowhere) ∧
    ∃ t, exec (.jmp (.lbl done)) s0 = .next t := ⟨by decide, by decide, _, rfl⟩

theorem witness_StepRunsDecodedInstruction :
    decode ⟨"Ret", []⟩ = .ok .ret ∧ s0.env.instrAt s0.pc = some .ret ∧ s0.pc ≠ s0.env.exitAddr := by decide

/-- The common launch of a one-instruction program. -/
def launched : State := State.reset.withInstr .ret

theorem witness_launch : (commonLaunch ⟨"Ret", []⟩).start = .ok launched := by decide

theorem witness_LaunchedTextIsExecuted :
    (commonLaunch ⟨"Ret", []⟩).start = .ok launched ∧ launched.env = launched.env ∧
    (launched.pc, (⟨"Ret", []⟩ : Term)) ∈ (commonLaunch ⟨"Ret", []⟩).text := by decide

/-- The three cases of the cycle, the last with an instruction in the top slot, where `npc` wraps; and a Call. -/
theorem witness_InstructionCycle :
    ({ s0 with pc := 0xfffffff0#32 } : State).pc = s0.env.exitAddr ∧
    ((0x1020#32 : Word) ≠ s0.env.exitAddr ∧ lookup 0x1020#32 s0.env.prog = none) ∧
    (let s := ({ s0 with pc := 0xfffffffc#32 } : State).withInstr (.neg (.reg .eax))
     s.pc ≠ s.env.exitAddr ∧ lookup s.pc s.env.prog = some (.neg (.reg .eax)) ∧ isTransfer (.neg (.reg .eax)) = false ∧
      probe (step s) State.pc = some 0x00000000#32) ∧
    (let s := s0.withInstr (.call (.lbl fact))
     s.mem.wf = true ∧ lookup s.pc s.env.prog = some (.call (.lbl fact)) ∧
      probe (step s) (fun t => wordAt (t.getReg .esp) t) = some 0x1004#32) := by decide

theorem witness_StepKeepsInvariant : launched.Inv ∧ ∃ t, step launched = .next t := ⟨by decide, _, rfl⟩

theorem witness_LaunchMeetsInvariant : (commonLaunch ⟨"Ret", []⟩).start = .ok launched := witness_launch

theorem witness_StepKeepsParameters : ∃ t, step launched = .next t := ⟨_, rfl⟩

/-- The last byte of the last code word, and a step that stores elsewhere. -/
theorem witness_StepNeverWritesCode :
    (∃ t, step (s0.withInstr (.push (.imm 7))) = .next t) ∧ (0x101c#32 : Word).toNat % 4 = 0 ∧
    (s0.withInstr (.push (.imm 7))).env.inCode 0x101c#32 = true ∧ InWord 0x101c#32 0x101f :=
  ⟨⟨_, rfl⟩, by decide, by decide, by decide⟩

theorem witness_LaunchedMachineStepsOrFaults : launched.Inv ∧ ¬ launched.Final := by decide

theorem witness_RunsOfALaunchedMachine : launched.Inv := by decide

theorem witness_NarrowingOnlyAddsFaults :
    s0.env.dataWindows = none ∧ ∃ u, step (narrow [⟨0xf0000, 0xffffc⟩] s0) = .next u := ⟨rfl, _, rfl⟩

theorem witness_LaunchProtocol :
    (commonLaunch ⟨"Ret", []⟩).start = .ok launched ∧
    (let l := { commonLaunch ⟨"Ret", []⟩ with mem0 := [(0x2000#32, 9#32), (0xfffffffc#32, 1#32)] }
     (l.mem0.map Prod.fst).Nodup ∧ (0xfffffffc#32, 1#32) ∈ l.mem0 ∧ (0xfffffffc#32 : Word) ≠ l.stackTop - 4 ∧
      (0xfffffffc#32 : Word).toNat % 4 = 0 ∧
      (match l.start with
        | .ok s => some (wordAt 0xfffffffc s)
        | .error _ => none) = some 1#32) := by decide

theorem witness_ResetIsCommonLaunch : Instr.ret.WellFormed ∧ Instr.ret.labels = [] := by decide

theorem witness_RegistersAreIndependent : Reg.eax ≠ Reg.esp := by decide

theorem witness_OperandValues : s0.env.label? arr = some 0x2000#32 := by decide

theorem witness_MemoryPrimitives :
    (0xffffffff#32 : Word).toNat % 4 ≠ 0 ∧
    ((0x1000#32 : Word).toNat % 4 = 0 ∧ s0.env.dataValid 0x1000#32 = false) ∧
    ((0xfffffffc#32 : Word).toNat % 4 = 0 ∧ s0.env.dataValid 0xfffffffc#32 = true ∧ s0.mem.wf = true ∧
      (0x00000000#32 : Word) ≠ 0xfffffffc#32) := by decide

/-- Slots of 8 bytes: the code word that is no instruction's address; the same word where `dom(Prog)` alone is barred, at the
end of a window; and slots of 4 bytes. -/
theorem witness_CodeAndDataAreApart :
    ({ launched.env with ilen := 8 } : Env).Sound ∧ launched.env.Sound ∧ launched.env.ilen = 4 ∧
    (let e : Env := { launched.env with ilen := 8, codeExtent := .starts, dataWindows := some [⟨0, 0x1004⟩] }
     e.Sound ∧ e.dataWindows = some [⟨0, 0x1004⟩] ∧ e.dataValid 0x1004#32 = true ∧ e.dataValid 0x1008#32 = false ∧
      e.dataValid 0x1000#32 = false) ∧
    (0x1004#32 : Word).toNat % 4 = 0 ∧ ({ launched.env with ilen := 8 } : Env).dataValid 0x1004#32 = false ∧
    (∃ t, step { launched with env := { launched.env with ilen := 8 } } = .next t) ∧
    CodeWord { launched.env with ilen := 8 } 0x1004#32 :=
  ⟨by decide, by decide, by decide, by decide, by decide, by decide, ⟨_, rfl⟩, (0x1000#32, .ret), by decide, 1, by decide, by decide⟩

theorem witness_ComparisonMeaning :
    (val (withEax 0xffffffff) (.reg .eax) = .next 0xffffffff#32 ∧
      val (withEax 0xffffffff) (.imm 0x80000000) = .next 0x80000000#32 ∧
      (∃ t, exec (.cmp (.reg .eax) (.imm 0x80000000)) (withEax 0xffffffff) = .next t) ∧
      (0xffffffff#32 : Word).toInt < 0) ∧
    (∃ t, exec (.cmp (.reg .eax) (.imm 0x80000000)) (withEax 0) = .next t) ∧ 0 ≤ (0#32 : Word).toInt ∧
    (0x7fffffff#32 : Word) ≠ 0x80000000#32 :=
  ⟨⟨rfl, rfl, ⟨_, rfl⟩, by decide⟩, ⟨_, rfl⟩, by decide, by decide⟩

/-! Read-modify-write instructions: a memory destination at the top of the address space, and one that faults. -/

/-- EBX at the last word of memory. -/
def top : State := s0.setReg .ebx 0xfffffffc
/-- EBX at an unaligned address. -/
def odd : State := s0.setReg .ebx 0x2002
def mEbx : Operand := .ind (atReg .ebx)

theorem witness_NegResult :
    Admissible (.neg mEbx) top ∧ top.mem.wf = true ∧ operandFault top mEbx = none ∧
    Admissible (.neg mEbx) odd ∧ odd.mem.wf = true ∧ operandFault odd mEbx = some (.misaligned 0x2002) := by decide

theorem witness_NotResult :
    Admissible (.not mEbx) top ∧ top.mem.wf = true ∧ operandFault top mEbx = none ∧
    Admissible (.not mEbx) odd ∧ odd.mem.wf = true ∧ operandFault odd mEbx = some (.misaligned 0x2002) := by decide

theorem witness_SetbResult :
    Admissible (.setb mEbx .sle) top ∧ top.mem.wf = true ∧ operandFault top mEbx = none ∧
    Admissible (.setb mEbx .sle) odd ∧ odd.mem.wf = true ∧ operandFault odd mEbx = some (.misaligned 0x2002) := by decide

theorem witness_AddResult :
    (Admissible (.add mEbx (.imm 1)) top ∧ top.mem.wf = true ∧ val top (.imm 1) = .next 1 ∧ operandFault top mEbx = none) ∧
    (Admissible (.add mEbx (.imm 1)) odd ∧ operandFault odd mEbx = some (.misaligned 0x2002)) ∧
    (Admissible (.add (.reg .esp) mEbx) odd ∧ odd.mem.wf = true ∧ operandFault odd mEbx = some (.misaligned 0x2002)) :=
  ⟨⟨by decide, by decide, rfl, by decide⟩, by decide, by decide⟩

theorem witness_SubResult :
    (Admissible (.sub mEbx (.imm 0x80000000)) top ∧ top.mem.wf = true ∧ val top (.imm 0x80000000) = .next 0x80000000 ∧
      operandFault top mEbx = none) ∧
    (Admissible (.sub (.reg .esp) mEbx) odd ∧ odd.mem.wf = true ∧ operandFault odd mEbx = some (.misaligned 0x2002)) :=
  ⟨⟨by decide, by decide, rfl, by decide⟩, by decide⟩

theorem witness_ImulResult :
    (Admissible (.imul .esp mEbx) top ∧ val top mEbx = .next 0xa5a5a5a5) ∧
    (Admissible (.imul .esp mEbx) odd ∧ operandFault odd mEbx = some (.misaligned 0x2002)) :=
  ⟨⟨by decide, rfl⟩, by decide⟩

theorem witness_OverflowIsExact :
    val top (.reg .ebx) = .next 0xfffffffc ∧ val top (.imm 0x80000000) = .next 0x80000000 ∧
    (∃ t, exec (.add (.reg .ebx) (.imm 0x80000000)) top = .next t) ∧
    (∃ t, exec (.sub (.reg .ebx) (.imm 0x80000000)) top = .next t) := ⟨rfl, rfl, ⟨_, rfl⟩, _, rfl⟩

theorem witness_LogicResult :
    (Admissible (.xor mEbx (.imm 1)) top ∧ top.mem.wf = true ∧ val top (.imm 1) = .next 1 ∧ operandFault top mEbx = none) ∧
    (Admissible (.and mEbx (.imm 1)) top ∧ Admissible (.or mEbx (.imm 1)) top) ∧
    (Admissible (.or (.reg .esp) mEbx) odd ∧ odd.mem.wf = true ∧ operandFault odd mEbx = some (.misaligned 0x2002)) :=
  ⟨⟨by decide, by decide, rfl, by decide⟩, by decide, by decide⟩

/-- Amount 31, the greatest used as it is; amount 32, the least that is too big; and the greatest, -1. -/
theorem witness_ShiftAmountPolicies :
    (val s0 (.imm 31) = .next 31 ∧ (31#32 : Word).toNat ≤ 31) ∧
    (val s0 (.imm 32) = .next 32 ∧ 31 < (32#32 : Word).toNat ∧ IsShift (.sar mEbx (.imm 32)) mEbx (.imm 32) ∧
      Admissible (.sar mEbx (.imm 32)) s0 ∧ s0.env.shiftAmt = .fault) ∧
    (val (mask5 s0) (.imm 0xffffffff) = .next 0xffffffff ∧ 31 < (0xffffffff#32 : Word).toNat ∧
      (mask5 s0).env.shiftAmt = .mask5 ∧ Admissible (.sar mEbx (.imm 0xffffffff)) (mask5 s0) ∧
      Admissible (.shl mEbx (.imm 0xffffffff)) (mask5 s0) ∧ Admissible (.shr mEbx (.imm 0xffffffff)) (mask5 s0)) :=
  ⟨⟨rfl, by decide⟩, ⟨rfl, by decide, .inl rfl, by decide, rfl⟩, rfl, by decide, rfl, by decide, by decide, by decide⟩

/-- The amounts 0, 1 and 31, on a destination in memory, and one that faults. -/
theorem witness_SarResult :
    ([0#32, 1#32, 31#32].all fun w => decide (Admissible (.sar mEbx (.imm w)) top) && decide (w.toNat ≤ 31)) = true ∧
    val top (.imm 31) = .next 31 ∧ top.mem.wf = true ∧ operandFault top mEbx = none ∧
    Admissible (.sar mEbx (.imm 31)) odd ∧ odd.mem.wf = true ∧ operandFault odd mEbx = some (.misaligned 0x2002) :=
  ⟨by decide, rfl, by decide, by decide, by decide, by decide, by decide⟩

/-- Also: bits 31 and 30 alike, and different. -/
theorem witness_ShlResult :
    ([0#32, 1#32, 31#32].all fun w => decide (Admissible (.shl mEbx (.imm w)) top) && decide (w.toNat ≤ 31)) = true ∧
    val top (.imm 31) = .next 31 ∧ top.mem.wf = true ∧ operandFault top mEbx = none ∧
    (0xc0000000#32 : Word).getLsbD 31 = (0xc0000000#32 : Word).getLsbD 30 ∧
    (0x80000000#32 : Word).getLsbD 31 ≠ (0x80000000#32 : Word).getLsbD 30 ∧
    Admissible (.shl mEbx (.imm 31)) odd ∧ odd.mem.wf = true ∧ operandFault odd mEbx = some (.misaligned 0x2002) :=
  ⟨by decide, rfl, by decide, by decide, by decide, by decide, by decide, by decide, by decide⟩

theorem witness_ShrResult :
    ([0#32, 1#32, 31#32].all fun w => decide (Admissible (.shr mEbx (.imm w)) top) && decide (w.toNat ≤ 31)) = true ∧
    val top (.imm 31) = .next 31 ∧ top.mem.wf = true ∧ operandFault top mEbx = none ∧
    Admissible (.shr mEbx (.imm 31)) odd ∧ odd.mem.wf = true ∧ operandFault odd mEbx = some (.misaligned 0x2002) :=
  ⟨by decide, rfl, by decide, by decide, by decide, by decide, by decide⟩

theorem witness_ShiftLaws : 0 + 31 ≤ 31 := by decide

theorem witness_LeaResult : Admissible (.lea .esp (scaled (some .esp) .eax 3 (some (.lbl arr)))) s0 := by decide

theorem witness_MovResult :
    (Admissible (.mov mEbx (.reg .esp)) top ∧ top.mem.wf = true ∧ val top (.reg .esp) = .next 0xffffc ∧
      operandFault top mEbx = none) ∧
    (Admissible (.mov (.reg .esp) mEbx) odd ∧ odd.mem.wf = true ∧ operandFault odd mEbx = some (.misaligned 0x2002)) :=
  ⟨⟨by decide, by decide, rfl, by decide⟩, by decide⟩

/-- ESP = 0, where the slot is the top word; an operand that faults; and a slot inside the code region. -/
theorem witness_PushResult :
    (Admissible (.push (.imm 1)) (withEsp 0) ∧ dependsOnEsp (.imm 1) = false ∧ (withEsp 0).mem.wf = true ∧
      val (withEsp 0) (.imm 1) = .next 1 ∧ (withEsp 0).env.accessFault ((withEsp 0).getReg .esp - 4) = none) ∧
    (Admissible (.push mEbx) odd ∧ dependsOnEsp mEbx = false ∧ odd.mem.wf = true ∧
      operandFault odd mEbx = some (.misaligned 0x2002)) ∧
    (operandFault (withEsp 0x1008) (.imm 1) = none ∧
      (withEsp 0x1008).env.accessFault ((withEsp 0x1008).getReg .esp - 4) = some (.invalidAddress 0x1004)) :=
  ⟨⟨by decide, by decide, by decide, rfl, by decide⟩, by decide, by decide⟩

/-- ESP = 0xfffffffc, from where a pop wraps. -/
theorem witness_PopResult :
    (Admissible (.pop (.reg .eax)) (withEsp 0xfffffffc) ∧ dependsOnEsp (.reg .eax) = false ∧
      (withEsp 0xfffffffc).mem.wf = true ∧
      (withEsp 0xfffffffc).memRead ((withEsp 0xfffffffc).getReg .esp) = .next 0xa5a5a5a5 ∧
      operandFault (withEsp 0xfffffffc) (.reg .eax) = none) ∧
    (withEsp 0xffffa).memRead ((withEsp 0xffffa).getReg .esp) = .fault (.misaligned 0xffffa) ∧
    (Admissible (.pop mEbx) odd ∧ dependsOnEsp mEbx = false ∧ odd.memRead (odd.getReg .esp) = .next 0xfffffff0 ∧
      operandFault odd mEbx = some (.misaligned 0x2002)) :=
  ⟨⟨by decide, by decide, by decide, rfl, by decide⟩, rfl, by decide, by decide, rfl, by decide⟩

def onEsp : Operand := .ind (atReg .esp)

theorem witness_EspOperandPolicies_push :
    (Admissible (.push (.reg .esp)) s0 ∧ dependsOnEsp (.reg .esp) = true ∧ s0.mem.wf = true ∧ s0.env.espOperand = .fault) ∧
    (Admissible (.push onEsp) (under .sequential s0) ∧ dependsOnEsp onEsp = true ∧
      (under .sequential s0).env.espOperand ≠ .fault ∧ val (pushEval (under .sequential s0)) onEsp = .next 0xa5a5a5a5 ∧
      (under .sequential s0).env.accessFault (s0.getReg .esp - 4) = none) ∧
    (val (pushEval (under .before s0)) onEsp = .next 0xfffffff0) ∧
    operandFault (pushEval (under .before (withEsp 0xffffa))) onEsp = some (.misaligned 0xffffa) ∧
    (operandFault (pushEval (under .before (withEsp 0x1020))) onEsp = none ∧
      (withEsp 0x1020).env.accessFault ((withEsp 0x1020).getReg .esp - 4) = some (.invalidAddress 0x101c)) :=
  ⟨by decide, ⟨by decide, by decide, by decide, rfl, by decide⟩, rfl, by decide, by decide⟩

theorem witness_EspOperandPolicies_pop :
    (Admissible (.pop onEsp) (under .before s0) ∧ (under .before s0).env.espOperand ≠ .fault ∧
      (under .before s0).memRead (s0.getReg .esp) = .next 0xfffffff0 ∧ popTarget (under .before s0) (atReg .esp) = 0x100000 ∧
      (under .before s0).env.accessFault (popTarget (under .before s0) (atReg .esp)) = none) ∧
    (popTarget (under .sequential s0) (atReg .esp) = 0xffffc ∧
      (under .sequential s0).env.accessFault (popTarget (under .sequential s0) (atReg .esp)) = none) ∧
    (under .before (withEsp 0xffffa)).memRead ((withEsp 0xffffa).getReg .esp) = .fault (.misaligned 0xffffa) ∧
    ((under .before (withEsp 0xffc)).memRead ((withEsp 0xffc).getReg .esp) = .next 0xa5a5a5a5 ∧
      (under .before (withEsp 0xffc)).env.accessFault (popTarget (under .before (withEsp 0xffc)) (atReg .esp)) =
        some (.invalidAddress 0x1000)) :=
  ⟨⟨by decide, by decide, rfl, by decide, by decide⟩, by decide, rfl, rfl, by decide⟩

theorem witness_EspOperandPolicies_call :
    (Admissible (.call onEsp) (under .sequential s0) ∧ dependsOnEsp onEsp = true ∧
      val (callEval (under .sequential s0)) onEsp = .next 0x1004 ∧
      (under .sequential s0).env.accessFault (s0.getReg .esp - 4) = none) ∧
    (val (callEval (under .before s0)) onEsp = .next 0xfffffff0) ∧
    operandFault (callEval (under .sequential (withEsp 0x1008))) onEsp = some (.invalidAddress 0x1004) ∧
    (operandFault (callEval (under .before (withEsp 0x1020))) onEsp = none ∧
      (withEsp 0x1020).env.accessFault ((withEsp 0x1020).getReg .esp - 4) = some (.invalidAddress 0x101c)) :=
  ⟨⟨by decide, by decide, rfl, by decide⟩, rfl, by decide, by decide⟩

theorem witness_PushThenPop :
    s0.mem.wf = true ∧ Reg.eax ≠ .esp ∧ dependsOnEsp (.lbl arr) = false ∧ val s0 (.lbl arr) = .next 0x2000 ∧
    ∃ t, exec (.push (.lbl arr)) s0 = .next t := ⟨by decide, by decide, by decide, rfl, _, rfl⟩

theorem witness_CmpResult :
    (Admissible (.cmp (.imm 0) mEbx) top ∧ val top (.imm 0) = .next 0 ∧ val top mEbx = .next 0xa5a5a5a5) ∧
    (Admissible (.cmp mEbx (.imm 0)) odd ∧ operandFault odd mEbx = some (.misaligned 0x2002)) :=
  ⟨⟨by decide, rfl, rfl⟩, by decide⟩

theorem witness_JmpResult :
    (Admissible (.jmp mEbx) top ∧ val top mEbx = .next 0xa5a5a5a5) ∧
    (Admissible (.jmp mEbx) odd ∧ operandFault odd mEbx = some (.misaligned 0x2002)) := ⟨⟨by decide, rfl⟩, by decide⟩

theorem witness_CallResult :
    (Admissible (.call (.lbl fact)) (withEsp 0) ∧ dependsOnEsp (.lbl fact) = false ∧ (withEsp 0).mem.wf = true ∧
      val (withEsp 0) (.lbl fact) = .next 0x1010 ∧ (withEsp 0).env.accessFault ((withEsp 0).getReg .esp - 4) = none) ∧
    (Admissible (.call mEbx) odd ∧ dependsOnEsp mEbx = false ∧ operandFault odd mEbx = some (.misaligned 0x2002)) ∧
    (operandFault (withEsp 0x1008) (.lbl fact) = none ∧
      (withEsp 0x1008).env.accessFault ((withEsp 0x1008).getReg .esp - 4) = some (.invalidAddress 0x1004)) :=
  ⟨⟨by decide, by decide, by decide, rfl, by decide⟩, by decide, by decide⟩

theorem witness_RetResult :
    (withEsp 0xfffffffc).memRead ((withEsp 0xfffffffc).getReg .esp) = .next 0xa5a5a5a5 ∧
    (withEsp 0x1000).memRead ((withEsp 0x1000).getReg .esp) = .fault (.invalidAddress 0x1000) := ⟨rfl, rfl⟩

theorem witness_ConditionalJumpResult : s0.env.label? done = some 0x101c := by decide

theorem witness_CallThenRet : s0.mem.wf = true ∧ ∃ t, exec (.call (.reg .eax)) s0 = .next t := ⟨by decide, _, rfl⟩

/-- A form that stores (the bytes just outside the word stored to), and one that does not. -/
theorem witness_InstructionFrame :
    (∃ t, exec (.push (.reg .eax)) s0 = .next t) ∧ Reg.ebp ∉ writtenRegs (.push (.reg .eax)) ∧
    storedWord s0 (.push (.reg .eax)) = some 0xffff8 ∧ ¬ InWord 0xffff8#32 0xffff7 ∧ ¬ InWord 0xffff8#32 0xffffc ∧
    (∃ t, exec (.cmp (.reg .eax) (.imm 0)) s0 = .next t) ∧ storedWord s0 (.cmp (.reg .eax) (.imm 0)) = none :=
  ⟨⟨_, rfl⟩, by decide, by decide, by decide, by decide, ⟨_, rfl⟩, by decide⟩

theorem witness_NonWritersKeepFlags : keepsFlags .ret = true ∧ ∃ t, exec .ret s0 = .next t := ⟨rfl, _, rfl⟩

theorem witness_OnlyJAndSetbReadFlags :
    ((∀ cc l, Instr.imul .eax (.imm 3) ≠ .j cc l) ∧ (∀ d cc, Instr.imul .eax (.imm 3) ≠ .setb d cc) ∧
      ∃ t, exec (.imul .eax (.imm 3)) s0 = .next t) ∧
    ((Flags.cond { OF := true, SF := true, ZF := false } .sge = s0.flags.cond .sge) ∧
      ∃ t, exec (.j .sge done) s0 = .next t) ∧
    (∃ e, exec (.setb mEbx .sge) odd = .fault e) :=
  ⟨⟨by simp, by simp, _, rfl⟩, ⟨by decide, _, rfl⟩, _, rfl⟩

/-- One fault of each kind that `exec` can answer. -/
theorem witness_FaultsOfEachInstruction :
    exec (.call (.reg .esp)) s0 = .fault (.espOperand (.call (.reg .esp))) ∧
    exec (.shl (.reg .eax) (.imm 32)) s0 = .fault (.shiftAmount 32) ∧
    exec (.add (.reg .eax) mEbx) odd = .fault (.misaligned 0x2002) ∧
    exec .ret (withEsp 0x1000) = .fault (.invalidAddress 0x1000) := ⟨rfl, rfl, rfl, rfl⟩

theorem witness_FaultsOfAStep :
    step State.reset = .fault (.noInstruction 0x1000) ∧
    step (s0.withInstr (.push (.reg .esp))) = .fault (.espOperand (.push (.reg .esp))) ∧
    step (s0.withInstr (.sar (.reg .eax) (.imm 32))) = .fault (.shiftAmount 32) ∧
    step (odd.withInstr (.jmp mEbx)) = .fault (.misaligned 0x2002) ∧
    step ((withEsp 0x1000).withInstr .ret) = .fault (.invalidAddress 0x1000) := ⟨rfl, rfl, rfl, rfl, rfl⟩

theorem witness_FaultPriority :
    (State.reset.pc ≠ State.reset.env.exitAddr ∧ lookup State.reset.pc State.reset.env.prog = none) ∧
    (StackOperand (.pop (.ind (atDisp .esp 2))) (.ind (atDisp .esp 2)) ∧ Admissible (.pop (.ind (atDisp .esp 2))) s0 ∧
      s0.env.espOperand = .fault ∧ dependsOnEsp (.ind (atDisp .esp 2)) = true) ∧
    (IsShift (.sar mEbx (.imm 32)) mEbx (.imm 32) ∧ Admissible (.sar mEbx (.imm 32)) odd ∧ odd.env.shiftAmt = .fault ∧
      val odd (.imm 32) = .next 32 ∧ 31 < (32#32 : Word).toNat) ∧
    (Admissible (.push mEbx) (odd.setReg .esp 0xffffa) ∧ dependsOnEsp mEbx = false ∧
      operandFault (odd.setReg .esp 0xffffa) mEbx = some (.misaligned 0x2002)) ∧
    (Admissible (.pop mEbx) (odd.setReg .esp 0xffffa) ∧
      (odd.setReg .esp 0xffffa).env.accessFault ((odd.setReg .esp 0xffffa).getReg .esp) = some (.misaligned 0xffffa)) ∧
    (0x1002#32 : Word).toNat % 4 ≠ 0 :=
  ⟨by decide, ⟨.inr (.inl rfl), by decide, rfl, by decide⟩, ⟨.inl rfl, by decide, rfl, rfl, by decide⟩, by decide, by decide,
    by decide⟩

end Sys2Proof.Tests
end

section
/-! Postconditions of operations: `Ensures P r` says that whatever `r` answers meets `P`. A fault and a refusal answer
nothing, so what an instruction keeps is proved along its sequence of operations, one rule per way of combining them. -/

namespace Sys2Proof.Machine

/-- Whatever next state (or value) the operation answers meets `P`. -/
def Ensures {α : Type} (P : α → Prop) (r : Result α) : Prop := ∀ a, r = .next a → P a

@[simp] theorem ensures_next {α : Type} {P : α → Prop} {a : α} : Ensures P (.next a) ↔ P a := by
  simp [Ensures]

@[simp] theorem ensures_raise {α : Type} {P : α → Prop} (f : Fault) : Ensures P (raise f) := by
  simp [Ensures]

theorem ensures_andThen {α β : Type} {P : β → Prop} {r : Result α} {k : α → Result β}
    (h : ∀ a, r = .next a → Ensures P (k a)) : Ensures P (andThen r k) := by
  intro b hb
  obtain ⟨a, ha, hk⟩ := andThen_eq_next.mp hb
  exact h a ha b hk

/-- The second part may be proved from what the first ensures. -/
theorem Ensures.andThen {α β : Type} {Q : α → Prop} {P : β → Prop} {r : Result α} {k : α → Result β}
    (hr : Ensures Q r) (hk : ∀ a, Q a → Ensures P (k a)) : Ensures P (andThen r k) :=
  ensures_andThen fun a ha => hk a (hr a ha)

theorem Ensures.ifAdmissible {P : State → Prop} {i : Instr} {s : State} {r : Result State} (h : Ensures P r) :
    Ensures P (ifAdmissible i s r) :=
  fun t ht => h t (ifAdmissible_eq_next.mp ht).2

end Sys2Proof.Machine
end

section
/-! The launch's parameters (R7, R20): no operation, no instruction and no step changes `env`. -/

namespace Sys2Proof.Machine

theorem store_keeps_env (s : State) (d : Operand) (v : Word) : Ensures (fun t => t.env = s.env) (store s d v) := by
  intro t h
  rcases store_eq_next.mp h with ⟨r, -, rfl⟩ | ⟨i, -, -, rfl⟩
  · exact State.setReg_env ..
  · exact State.withMem_env ..

theorem pushWord_keeps_env (s : State) (v : Word) : Ensures (fun t => t.env = s.env) (s.pushWord v) := by
  intro t h
  obtain ⟨-, rfl⟩ := pushWord_eq_next.mp h
  simp

theorem modifyDest_keeps_env (s : State) (d : Operand) (g : Word → Word) (fl : Word → Flags) :
    Ensures (fun t => t.env = s.env) (modifyDest s d g fl) := by
  intro t h
  obtain ⟨x, u, -, hu, rfl⟩ := modifyDest_eq_next.mp h
  simpa using store_keeps_env s d (g x) u hu

/-- No instruction changes a parameter of the launch (R20). -/
theorem exec_keeps_env (i : Instr) (s : State) : Ensures (fun t => t.env = s.env) (exec i s) := by
  cases i with
  | neg d | not d | setb d cc => exact (modifyDest_keeps_env s d _ _).ifAdmissible
  | add d src | sub d src | and d src | or d src | xor d src | sar d src | shl d src | shr d src =>
    exact (ensures_andThen fun _ _ => modifyDest_keeps_env s d _ _).ifAdmissible
  | imul d src => exact (ensures_andThen fun _ _ => by simp).ifAdmissible
  | lea d src => exact (ensures_next.mpr (by simp)).ifAdmissible
  | mov d src =>
    exact (ensures_andThen fun v _ => (store_keeps_env s d v).andThen fun t ht => by simpa using ht).ifAdmissible
  | push src =>
    have hpush (v : Word) : Ensures (fun t => t.env = s.env) (andThen (s.pushWord v) fun t => .next t.advance) :=
      (pushWord_keeps_env s v).andThen fun t ht => by simpa using ht
    refine Ensures.ifAdmissible ?_
    cases espPolicy s src with
    | fault => exact ensures_raise _
    | sequential | before => exact ensures_andThen fun v _ => hpush v
  | pop d =>
    refine Ensures.ifAdmissible ?_
    cases espPolicy s d with
    | fault => exact ensures_raise _
    | sequential =>
      exact ensures_andThen fun v _ => (store_keeps_env s d v).andThen fun t ht => by simpa using ht
    | before =>
      exact ensures_andThen fun v _ => (store_keeps_env s.popped d v).andThen fun t ht => by simpa using ht
  | cmp a b => exact (ensures_andThen fun _ _ => ensures_andThen fun _ _ => by simp).ifAdmissible
  | jmp src => exact (ensures_andThen fun _ _ => by simp).ifAdmissible
  | call src =>
    refine Ensures.ifAdmissible ?_
    cases espPolicy s src with
    | fault => exact ensures_raise _
    | sequential =>
      exact ensures_andThen fun _ _ => (pushWord_keeps_env s s.npc).andThen fun u hu =>
        ensures_andThen fun _ _ => by simpa using hu
    | before =>
      exact ensures_andThen fun _ _ => (pushWord_keeps_env s s.npc).andThen fun u hu => by simpa using hu
  | ret =>
    rw [exec, execRet]
    exact (ensures_andThen fun _ _ => by simp).ifAdmissible
  | j cc target =>
    rw [exec, execJ]
    refine Ensures.ifAdmissible (ensures_next.mpr ?_)
    split
    · exact State.jump_env ..
    · exact State.advance_env ..

/-- No step changes a parameter of the launch (R7, R20). -/
theorem step_keeps_env {s t : State} (h : step s = .next t) : t.env = s.env := by
  obtain ⟨-, i, -, hi⟩ := step_eq_next.mp h
  exact exec_keeps_env i s t hi

end Sys2Proof.Machine
end

section
/-! Code words and data words (R67, R69, D9): under sound parameters the model's `inCode` is the words of the instructions'
slots, or of `dom(Prog)`, that `CodeWord` writes out. -/

namespace Sys2Proof.Machine

theorem aligned_iff {a : Word} : aligned a = true ↔ a.toNat % 4 = 0 := by
  simp [aligned]

theorem Env.Sound.aligned_of_mem {e : Env} (he : e.Sound) {p : Word × Instr} (hp : p ∈ e.prog) : p.1.toNat % 4 = 0 := by
  obtain ⟨-, -, ha⟩ := he.1 p hp
  exact aligned_iff.mp ha

theorem Env.Sound.ilen_ne_zero {e : Env} (he : e.Sound) : e.ilen ≠ 0 := by
  obtain ⟨-, hn, -⟩ := he
  exact hn

/-- The words of a slot of `n` bytes at `b`, modulo 2^32, are the aligned addresses less than `n` above `b`. -/
theorem slotWord_iff {a b : Word} {n : Nat} (ha : a.toNat % 4 = 0) (hb : b.toNat % 4 = 0) :
    (∃ k, 4 * k < n ∧ a = b + BitVec.ofNat 32 (4 * k)) ↔ (a - b).toNat < n := by
  constructor
  · rintro ⟨k, hk, rfl⟩
    calc (b + BitVec.ofNat 32 (4 * k) - b).toNat = 4 * k % 2 ^ 32 := by simp [BitVec.add_comm b]
      _ ≤ 4 * k := Nat.mod_le _ _
      _ < n := hk
  · intro h
    have hk : 4 * ((a - b).toNat / 4) = (a - b).toNat := by
      rw [BitVec.toNat_sub]
      omega
    refine ⟨(a - b).toNat / 4, by rwa [hk], ?_⟩
    rw [hk, BitVec.ofNat_toNat, BitVec.setWidth_eq, BitVec.add_comm, BitVec.sub_add_cancel]

end Sys2Proof.Machine

namespace Sys2Proof.Claims

open Sys2Proof Sys2Proof.Machine

theorem codeWord_of_slots {e : Env} {a : Word} (h : e.codeExtent = .slots) :
    CodeWord e a ↔ ∃ p ∈ e.prog, ∃ k, 4 * k < e.ilen ∧ a = p.1 + BitVec.ofNat 32 (4 * k) := by
  simp only [CodeWord, h]

theorem codeWord_of_starts {e : Env} {a : Word} (h : e.codeExtent = .starts) : CodeWord e a ↔ ∃ p ∈ e.prog, a = p.1 := by
  simp only [CodeWord, h]

/-- An address of `dom(Prog)` is a code word. -/
theorem codeWord_of_mem {e : Env} (hn : e.ilen ≠ 0) {p : Word × Instr} (hp : p ∈ e.prog) : CodeWord e p.1 := by
  cases h : e.codeExtent with
  | slots => exact (codeWord_of_slots h).mpr ⟨p, hp, 0, by omega, by simp⟩
  | starts => exact (codeWord_of_starts h).mpr ⟨p, hp, rfl⟩

/-- With slots of one word the code words are `dom(Prog)`. -/
theorem mem_prog_of_codeWord {e : Env} {a : Word} (hn : e.ilen = 4) (ha : CodeWord e a) : ∃ p ∈ e.prog, a = p.1 := by
  cases h : e.codeExtent with
  | slots =>
    obtain ⟨p, hp, k, hk, rfl⟩ := (codeWord_of_slots h).mp ha
    obtain rfl : k = 0 := by omega
    exact ⟨p, hp, by simp⟩
  | starts => exact (codeWord_of_starts h).mp ha

theorem aligned_of_codeWord {e : Env} {a : Word} (he : e.Sound) (ha : CodeWord e a) : a.toNat % 4 = 0 := by
  cases h : e.codeExtent with
  | slots =>
    obtain ⟨p, hp, k, -, rfl⟩ := (codeWord_of_slots h).mp ha
    have hp4 := he.aligned_of_mem hp
    rw [BitVec.toNat_add, BitVec.toNat_ofNat]
    omega
  | starts =>
    obtain ⟨p, hp, rfl⟩ := (codeWord_of_starts h).mp ha
    exact he.aligned_of_mem hp

/-- The model's test of an aligned address is the specification's code words. -/
theorem inCode_iff_codeWord {e : Env} {a : Word} (he : e.Sound) (ha : a.toNat % 4 = 0) :
    e.inCode a = true ↔ CodeWord e a := by
  cases h : e.codeExtent with
  | starts => simp [inCode_eq_true, codeWord_of_starts h, h]
  | slots =>
    rw [inCode_eq_true, codeWord_of_slots h]
    refine exists_congr fun p => and_congr_right fun hp => ?_
    have hpos : a = p.1 → (a - p.1).toNat < e.ilen := by
      rintro rfl
      simpa using Nat.pos_of_ne_zero he.ilen_ne_zero
    rw [slotWord_iff ha (he.aligned_of_mem hp)]
    simpa [h] using hpos

/-- An access to a code word is refused as an invalid address (R67). -/
theorem accessFault_of_codeWord {e : Env} {a : Word} (he : e.Sound) (ha : CodeWord e a) :
    e.accessFault a = some (.invalidAddress a) := by
  have ha4 := aligned_of_codeWord he ha
  have hcode := (inCode_iff_codeWord he ha4).mpr ha
  refine accessFault_eq_some.mpr (.inr ⟨aligned_iff.mpr ha4, ?_, rfl⟩)
  simp [Env.dataValid, hcode]

/-- `DataValid` of an aligned address: no code word, and inside a window where the launch narrows it (R67, R69). -/
theorem dataValid_iff_not_codeWord {e : Env} {a : Word} (he : e.Sound) (ha : a.toNat % 4 = 0) :
    e.dataValid a = true ↔ ¬ CodeWord e a ∧
      ∀ ws, e.dataWindows = some ws → ∃ w ∈ ws, w.first.toNat ≤ a.toNat ∧ a.toNat ≤ w.last.toNat := by
  rw [dataValid_eq_true, ← inCode_iff_codeWord he ha, Bool.not_eq_true]

theorem fetch_withMem (s : State) (m : Memory) : (s.withMem m).fetch = s.fetch := rfl

/-- Settles O12: every instruction is a sequence of operations that keep `env`. -/
theorem stepKeepsParameters : Obligations.StepKeepsParameters := fun _ _ => step_keeps_env

/-- Settles O23: `inCode` is the code words, and `DataValid` and the access check follow from it. -/
theorem codeAndDataAreApart : Obligations.CodeAndDataAreApart := by
  intro s hs
  exact ⟨fetch_withMem s, fun t ht => by rw [step_keeps_env ht], fun a => dataValid_iff_not_codeWord hs,
    fun a v ha =>
      have hf := accessFault_of_codeWord hs ha
      ⟨memRead_of_fault hf, memWrite_of_fault v hf⟩,
    fun p => codeWord_of_mem hs.ilen_ne_zero, fun hn a => mem_prog_of_codeWord hn⟩

end Sys2Proof.Claims
end

section
/-! What one instruction can change, said once: at most one admitted word of memory, the flags only where R29 says so, and
EIP to `npc` unless the instruction is a transfer. The invariant, the flag rule and the instruction cycle follow from it. -/

namespace Sys2Proof.Machine

open Sys2Proof.Claims

/-- Memory is as before, but for one word stored at an address that passed the access check (R63). -/
def StoresAtMostOneWord (s t : State) : Prop :=
  t.mem = s.mem ∨ ∃ a v, s.env.accessFault a = none ∧ t.mem = s.mem.writeWord a.toNat v

/-- A store inside an instruction: memory as `StoresAtMostOneWord` says, and the flags and the next address as before. -/
structure StoreEffect (s t : State) : Prop where
  mem : StoresAtMostOneWord s t
  flags : t.flags = s.flags
  npc : t.npc = s.npc

/-- What the instruction `i` may change of memory, flags and EIP. -/
structure ExecEffect (i : Instr) (s t : State) : Prop where
  mem : StoresAtMostOneWord s t
  flags : keepsFlags i = true → t.flags = s.flags
  pc : isTransfer i = false → t.pc = s.npc

theorem StoresAtMostOneWord.keeps_wf {s t : State} (h : StoresAtMostOneWord s t) (hs : s.mem.wf = true) :
    t.mem.wf = true := by
  obtain hmem | ⟨a, v, ha, hmem⟩ := h
  · rwa [hmem]
  · rw [hmem]
    exact Memory.wf_writeWord v hs (aligned_bound (accessFault_eq_none.mp ha).1)

theorem StoreEffect.refl (s : State) : StoreEffect s s := ⟨.inl rfl, rfl, rfl⟩

theorem store_effect (s : State) (d : Operand) (v : Word) : Ensures (StoreEffect s) (store s d v) := by
  intro t h
  rcases store_eq_next.mp h with ⟨r, -, rfl⟩ | ⟨i, -, ha, rfl⟩
  · exact ⟨.inl rfl, rfl, rfl⟩
  · exact ⟨.inr ⟨_, v, ha, rfl⟩, rfl, rfl⟩

theorem pushWord_effect (s : State) (v : Word) : Ensures (StoreEffect s) (s.pushWord v) := by
  intro t h
  obtain ⟨ha, rfl⟩ := pushWord_eq_next.mp h
  exact ⟨.inr ⟨_, v, ha, rfl⟩, rfl, rfl⟩

/-- An instruction that ends by falling through after a store. -/
theorem StoreEffect.advance {i : Instr} {s t : State} (h : StoreEffect s t) : ExecEffect i s t.advance :=
  ⟨h.mem, fun _ => h.flags, fun _ => h.npc⟩

/-- A transfer ends anywhere. -/
theorem StoreEffect.jump {i : Instr} {s t : State} (w : Word) (hi : isTransfer i = true) (h : StoreEffect s t) :
    ExecEffect i s (t.jump w) :=
  ⟨h.mem, fun _ => h.flags, fun hn => by simp [hi] at hn⟩

theorem modifyDest_effect {i : Instr} (s : State) (d : Operand) (g : Word → Word) (fl : Word → Flags)
    (hfl : keepsFlags i = true → ∀ x, fl x = s.flags) : Ensures (ExecEffect i s) (modifyDest s d g fl) := by
  intro t h
  obtain ⟨x, u, -, hu, rfl⟩ := modifyDest_eq_next.mp h
  obtain ⟨hmem, -, hnpc⟩ := store_effect s d (g x) u hu
  exact ⟨hmem, fun hk => hfl hk x, fun _ => hnpc⟩

theorem exec_effect (i : Instr) (s : State) : Ensures (ExecEffect i s) (exec i s) := by
  cases i with
  | neg d => exact (modifyDest_effect s d _ _ (by simp [keepsFlags])).ifAdmissible
  | not d | setb d cc => exact (modifyDest_effect s d _ _ fun _ _ => rfl).ifAdmissible
  | add d src | sub d src | and d src | or d src | xor d src | sar d src | shl d src | shr d src =>
    exact (ensures_andThen fun _ _ => modifyDest_effect s d _ _ (by simp [keepsFlags])).ifAdmissible
  | imul d src =>
    exact (ensures_andThen fun _ _ => ensures_next.mpr ⟨.inl rfl, by simp [keepsFlags], fun _ => rfl⟩).ifAdmissible
  | lea d src => exact (ensures_next.mpr ⟨.inl rfl, fun _ => rfl, fun _ => rfl⟩).ifAdmissible
  | mov d src =>
    exact (ensures_andThen fun v _ => (store_effect s d v).andThen fun t ht => ensures_next.mpr ht.advance).ifAdmissible
  | push src =>
    have hpush (v : Word) :
        Ensures (ExecEffect (.push src) s) (andThen (s.pushWord v) fun t => .next t.advance) :=
      (pushWord_effect s v).andThen fun t ht => ensures_next.mpr ht.advance
    refine Ensures.ifAdmissible ?_
    cases espPolicy s src with
    | fault => exact ensures_raise _
    | sequential | before => exact ensures_andThen fun v _ => hpush v
  | pop d =>
    refine Ensures.ifAdmissible ?_
    cases espPolicy s d with
    | fault => exact ensures_raise _
    | sequential =>
      exact ensures_andThen fun v _ => (store_effect s d v).andThen fun t ht =>
        ensures_next.mpr (StoreEffect.advance (t := t.popped) ⟨ht.mem, ht.flags, ht.npc⟩)
    | before =>
      exact ensures_andThen fun v _ => (store_effect s.popped d v).andThen fun t ht =>
        ensures_next.mpr (StoreEffect.advance ⟨ht.mem, ht.flags, ht.npc⟩)
  | cmp a b =>
    exact (ensures_andThen fun _ _ => ensures_andThen fun _ _ =>
      ensures_next.mpr ⟨.inl rfl, by simp [keepsFlags], fun _ => rfl⟩).ifAdmissible
  | jmp src => exact (ensures_andThen fun w _ => ensures_next.mpr ((StoreEffect.refl s).jump w rfl)).ifAdmissible
  | call src =>
    refine Ensures.ifAdmissible ?_
    cases espPolicy s src with
    | fault => exact ensures_raise _
    | sequential =>
      exact ensures_andThen fun _ _ => (pushWord_effect s s.npc).andThen fun u hu =>
        ensures_andThen fun w _ => ensures_next.mpr (hu.jump w rfl)
    | before =>
      exact ensures_andThen fun w _ => (pushWord_effect s s.npc).andThen fun u hu => ensures_next.mpr (hu.jump w rfl)
  | ret =>
    exact Ensures.ifAdmissible (i := .ret) (s := s) (ensures_andThen fun w _ =>
      ensures_next.mpr (StoreEffect.jump (t := s.popped) w rfl ⟨.inl rfl, rfl, rfl⟩))
  | j cc target =>
    refine Ensures.ifAdmissible (i := .j cc target) (s := s) (ensures_next.mpr ?_)
    split
    · exact (StoreEffect.refl s).jump _ rfl
    · exact (StoreEffect.refl s).advance

theorem step_effect {s t : State} (h : step s = .next t) : StoresAtMostOneWord s t := by
  obtain ⟨-, i, -, hi⟩ := step_eq_next.mp h
  exact (exec_effect i s t hi).mem

/-- The invariant of a launched machine is kept: memory by what a step stores, the parameters because none changes. -/
theorem step_keeps_inv {s t : State} (hs : s.Inv) (h : step s = .next t) : t.Inv := by
  obtain ⟨hwf, hsound⟩ := hs
  exact ⟨(step_effect h).keeps_wf hwf, by rwa [step_keeps_env h]⟩

end Sys2Proof.Machine

namespace Sys2Proof.Claims

open Sys2Proof Sys2Proof.Machine

/-- Settles O9: a step stores at most one admitted word, and changes no parameter. -/
theorem stepKeepsInvariant : Obligations.StepKeepsInvariant := fun _ _ => step_keeps_inv

/-- Settles O52: each of the ten instructions ends in a state with the flags it started from. -/
theorem nonWritersKeepFlags : Obligations.NonWritersKeepFlags := fun i s t hi h => (exec_effect i s t h).flags hi

end Sys2Proof.Claims
end

section
/-! The instruction cycle (R26): what a step answers by what is at EIP, and what Call leaves on the stack. -/

namespace Sys2Proof.Machine

theorem step_of_final {s : State} (h : s.pc = s.env.exitAddr) : step s = .refused .runEnded := by
  simp [step, fetch_eq_refused.mpr ⟨h, rfl⟩]

theorem step_of_no_instr {s : State} (hx : s.pc ≠ s.env.exitAddr) (h : s.env.instrAt s.pc = none) :
    step s = .fault (.noInstruction s.pc) := by
  simp [step, fetch_eq_fault.mpr ⟨hx, h, rfl⟩]

theorem step_of_instr {s : State} {i : Instr} (hx : s.pc ≠ s.env.exitAddr) (h : s.env.instrAt s.pc = some i) :
    step s = exec i s := by
  simp [step, fetch_eq_next.mpr ⟨hx, h⟩]

/-- Where a Call succeeds, the return address has been pushed, and then only EIP is set (R212), whatever the policy. -/
theorem exists_pushWord_of_exec_call {o : Operand} {s t : State} (h : exec (.call o) s = .next t) :
    ∃ u w, s.pushWord s.npc = .next u ∧ t = u.jump w := by
  obtain ⟨-, h⟩ := ifAdmissible_eq_next.mp (show ifAdmissible (.call o) s _ = .next t from h)
  cases hp : espPolicy s o with
  | fault => simp [hp] at h
  | sequential =>
    simp only [hp, andThen_eq_next] at h
    obtain ⟨-, -, u, hu, w, -, ht⟩ := h
    exact ⟨u, w, hu, by simpa using ht.symm⟩
  | before =>
    simp only [hp, andThen_eq_next] at h
    obtain ⟨w, -, u, hu, ht⟩ := h
    exact ⟨u, w, hu, by simpa using ht.symm⟩

/-- The word pushed is the word at the top of the stack. -/
theorem readWord_esp_of_pushWord {s u : State} {v : Word} (hm : s.mem.wf = true) (h : s.pushWord v = .next u) :
    u.mem.readWord (u.getReg .esp).toNat = v := by
  obtain ⟨ha, rfl⟩ := pushWord_eq_next.mp h
  simpa using Memory.readWord_writeWord_same v hm (aligned_bound (accessFault_eq_none.mp ha).1)

end Sys2Proof.Machine

namespace Sys2Proof.Claims

open Sys2Proof Sys2Proof.Machine

/-- Settles O6: the fetch answers the instruction at EIP. -/
theorem stepRunsDecodedInstruction : Obligations.StepRunsDecodedInstruction :=
  fun _ _ _ _ hi hx => step_of_instr hx hi

/-- Settles O8: by what the fetch finds, what an instruction may do to EIP, and what Call pushes. -/
theorem instructionCycle : Obligations.InstructionCycle := by
  intro s
  refine ⟨step_of_final, step_of_no_instr, fun i hx hi => ⟨step_of_instr hx hi, fun ht t hst => ?_⟩,
    fun o t hm hi hst => ?_, BitVec.toNat_ofNat ..⟩
  · rw [step_of_instr hx hi] at hst
    exact (exec_effect i s t hst).pc ht
  · obtain ⟨hx, -⟩ := step_eq_next.mp hst
    rw [step_of_instr hx hi] at hst
    obtain ⟨u, w, hu, rfl⟩ := exists_pushWord_of_exec_call hst
    simpa using readWord_esp_of_pushWord hm hu

end Sys2Proof.Claims
end

section
/-! Loaded programs (R25, R90, R271): the decoder accepts well-formed instructions only, and the text of an accepted launch is
the program of its state. -/

namespace Sys2Proof

/-- The decoder accepts a term exactly when its name has a row, its arguments fill the row's positions and the instruction
they make passes the static checks. -/
theorem decode_eq_ok {t : Term} {i : Instr} :
    decode t = .ok i ↔ ∃ o, opcodeOfName t.head = some o ∧ build o t.args = some i ∧ i.WellFormed := by
  unfold decode
  cases ho : opcodeOfName t.head with
  | none => simp
  | some o =>
    cases hb : build o t.args with
    | none => simp [hb]
    | some k =>
      cases hk : k.illFormed? with
      | some w | none => simp +contextual [hb, Instr.WellFormed, hk, eq_comm (a := k)]

theorem build_opcode_args (i : Instr) : build i.opcode i.args = some i := by
  cases i <;> rfl

/-- Decoding undoes encoding on well-formed instructions (R90). -/
theorem decode_encode {i : Instr} (h : i.WellFormed) : decode (encode i) = .ok i :=
  decode_eq_ok.mpr ⟨i.opcode, opcodeOfName_name _, build_opcode_args i, h⟩

end Sys2Proof

namespace Sys2Proof.Machine

theorem mem_of_lookup {α β : Type} [DecidableEq α] {k : α} {b : β} {ps : List (α × β)} (h : lookup k ps = some b) :
    (k, b) ∈ ps := by
  induction ps with
  | nil => simp [lookup] at h
  | cons p rest ih =>
    obtain ⟨a, c⟩ := p
    by_cases hk : k = a
    · simp_all [lookup]
    · exact List.mem_cons_of_mem _ (ih (by simpa [lookup, hk] using h))

/-- Each term of a text that decodes has its instruction in the decoded program, at the same address. -/
theorem exists_instr_of_decodeText {ts : List (Word × Term)} {prog : List (Word × Instr)} {a : Word} {t : Term}
    (h : decodeText ts = .ok prog) (ht : (a, t) ∈ ts) : ∃ i, (a, i) ∈ prog ∧ decode t = .ok i := by
  replace h := decodeText_eq_ok.mp h
  induction h with
  | nil => simp at ht
  | @cons p q _ _ hpq _ ih =>
    obtain ⟨ha, hdec⟩ := hpq
    rcases List.mem_cons.mp ht with rfl | hrest
    · obtain ⟨b, i⟩ := q
      obtain rfl : b = a := ha
      exact ⟨i, by simp, hdec⟩
    · obtain ⟨i, hi, hi'⟩ := ih hrest
      exact ⟨i, by simp [hi], hi'⟩

/-- The instruction at EIP is one the loader has admitted. -/
theorem Env.Sound.admissible_of_instrAt {s : State} (hs : s.env.Sound) {i : Instr} (h : s.env.instrAt s.pc = some i) :
    Admissible i s := by
  obtain ⟨hwf, hl, -⟩ := hs.1 _ (mem_of_lookup h)
  exact ⟨hwf, hl⟩

/-- A program placed by an accepted launch: what stands at `a` in the decoded text is what the state finds there. -/
theorem Launch.instrAt_of_mem {l : Launch} {prog : List (Word × Instr)} {p : Word × Instr}
    (h : l.failedCheck prog = none) (hp : p ∈ prog) : (l.env prog).instrAt p.1 = some p.2 := by
  obtain ⟨-, ⟨hn, -⟩, -, ho, -⟩ := failedCheck_eq_none.mp h
  exact lookup_of_mem hn ho hp

end Sys2Proof.Machine

namespace Sys2Proof.Claims

open Sys2Proof Sys2Proof.Machine

/-- No instruction of the one-instruction program stands in the word below `STACK_TOP`. -/
theorem commonLaunch_dataValid_stack (t : Term) (i : Instr) :
    ((commonLaunch t).env [(0x00001000#32, i)]).dataValid ((commonLaunch t).stackTop - 4) = true := by
  have hne : 0x00100000#32 - 4 ≠ 0x00001000#32 := by decide
  have hfar : ¬ (0x00100000#32 - 4 - 0x00001000#32).toNat < 4 := by decide
  refine dataValid_eq_true.mpr ⟨?_, fun ws h => nomatch h⟩
  rw [← Bool.not_eq_true, inCode_eq_true]
  rintro ⟨p, hp, h⟩
  obtain rfl : p = (0x00001000#32, i) := List.mem_singleton.mp hp
  exact h.elim hne fun h => hfar h.2

theorem commonLaunch_failedCheck (t : Term) {i : Instr} (h : i.labels = []) :
    (commonLaunch t).failedCheck [(0x00001000#32, i)] = none := by
  have hstack : aligned 0x00100000#32 = true := by decide
  have hexit : aligned 0xfffffff0#32 = true := by decide
  refine failedCheck_eq_none.mpr ⟨?_, ?_, ?_, ?_, ?_, ⟨hstack, commonLaunch_dataValid_stack t i⟩, ⟨hexit, ?_⟩, ?_⟩
  · simp [h, Env.unresolved]
  · simp [commonLaunch]
  · simp [aligned]
  · simp [noOverlap]
  · simp [lookup, commonLaunch]
  · simp [lookup, commonLaunch]
  · simp [commonLaunch]

theorem commonLaunch_firstState (t : Term) (i : Instr) :
    (commonLaunch t).firstState [(0x00001000#32, i)] = State.reset.withInstr i := by
  have hregs : (commonLaunch t).reg0.set .esp ((commonLaunch t).stackTop - 4) = State.reset.regs := by
    simp only [commonLaunch]
    decide
  have hmem : (loadWords [] (commonLaunch t).mem0).writeWord ((commonLaunch t).stackTop - 4).toNat
      (commonLaunch t).exitAddr = State.reset.mem := by
    simp only [commonLaunch]
    decide
  have henv : (commonLaunch t).env [(0x00001000#32, i)] = (State.reset.withInstr i).env := by
    have hexit : State.reset.pc ≠ State.reset.env.exitAddr := by decide
    simp only [State.withInstr, hexit, if_false]
    rfl
  unfold Launch.firstState
  rw [hregs, hmem, henv]
  rfl

/-- Settles O7: the decoded text is the program, no instruction stands at `EXIT_ADDR`, and check 1 has admitted each. -/
theorem launchedTextIsExecuted : Obligations.LaunchedTextIsExecuted := by
  intro l s₀ s t hl hs ht
  obtain ⟨prog, hd, hc, rfl⟩ := start_eq_ok.mp hl
  replace hs : s.env = l.env prog := hs
  obtain ⟨i, hi, hdec⟩ := exists_instr_of_decodeText hd ht
  obtain ⟨hres, -, -, -, -, -, ⟨-, hexit⟩, -⟩ := failedCheck_eq_none.mp hc
  obtain ⟨-, -, -, hwf⟩ := decode_eq_ok.mp hdec
  have hat : s.env.instrAt s.pc = some i := by
    rw [hs]
    exact Launch.instrAt_of_mem hc hi
  refine ⟨i, hdec, ⟨hwf, by rw [hs]; exact hres _ hi⟩, step_of_instr ?_ hat⟩
  rw [hs] at hat ⊢
  intro hx
  rw [hx] at hat
  exact absurd (hat.symm.trans hexit) (by simp)

/-- Settles O18: the encoded instruction decodes to itself, the checks pass on the one-instruction program, and the first
state is reset's with that program. -/
theorem resetIsCommonLaunch : Obligations.ResetIsCommonLaunch := fun i hwf hlab =>
  start_eq_ok.mpr ⟨[(0x00001000#32, i)], decodeText_eq_ok.mpr (.cons ⟨rfl, decode_encode hwf⟩ .nil),
    commonLaunch_failedCheck _ hlab, (commonLaunch_firstState _ i).symm⟩

end Sys2Proof.Claims
end

section
/-! Refusals: an instruction that the loader admits steps or faults (R108, R255), so what a run of a launched machine can
meet is a fault or its end. -/

namespace Sys2Proof.Machine

/-- The operation answers a value or a fault. -/
def NeverRefused {α : Type} (r : Result α) : Prop := ∀ q, r ≠ .refused q

theorem neverRefused_next {α : Type} (a : α) : NeverRefused (.next a : Result α) := fun _ h => nomatch h

theorem neverRefused_raise {α : Type} (f : Fault) : NeverRefused (raise f : Result α) := raise_ne_refused f

theorem NeverRefused.andThen {α β : Type} {r : Result α} {k : α → Result β} (hr : NeverRefused r)
    (hk : ∀ a, NeverRefused (k a)) : NeverRefused (andThen r k) := by
  intro q h
  rcases andThen_eq_refused.mp h with h | ⟨a, -, h⟩
  · exact hr q h
  · exact hk a q h

theorem NeverRefused.ifAdmissible {i : Instr} {s : State} {r : Result State} (hi : Admissible i s) (hr : NeverRefused r) :
    NeverRefused (ifAdmissible i s r) := by
  rwa [ifAdmissible_of_admissible hi]

/-- An admissible instruction is executed (R108), and each of its operations answers or faults. -/
theorem exec_neverRefused {i : Instr} {s : State} (hi : Admissible i s) : NeverRefused (exec i s) := by
  have hwf := hi.1
  cases i with
  | neg d | not d | setb d cc =>
    exact .ifAdmissible hi (modifyDest_ne_refused (checkDest_eq_none.mp hwf).1 s _ _)
  | add d src | sub d src | and d src | or d src | xor d src =>
    exact .ifAdmissible hi (.andThen (val_ne_refused s src) fun _ =>
      modifyDest_ne_refused (checkDestSrc_eq_none.mp hwf).1 s _ _)
  | sar d amt | shl d amt | shr d amt =>
    exact .ifAdmissible hi (.andThen (shiftAmount_ne_refused s amt) fun _ =>
      modifyDest_ne_refused (checkDestAmt_eq_none.mp hwf).1 s _ _)
  | imul d src => exact .ifAdmissible hi (.andThen (val_ne_refused s src) fun _ => neverRefused_next _)
  | lea d src => exact .ifAdmissible hi (neverRefused_next _)
  | mov d src =>
    exact .ifAdmissible hi (.andThen (val_ne_refused s src) fun v =>
      .andThen (store_ne_refused (checkDestSrc_eq_none.mp hwf).1 s v) fun _ => neverRefused_next _)
  | push src =>
    refine .ifAdmissible hi ?_
    cases espPolicy s src with
    | fault => exact neverRefused_raise _
    | sequential | before =>
      exact .andThen (val_ne_refused _ src) fun v => .andThen (pushWord_ne_refused s v) fun _ => neverRefused_next _
  | pop d =>
    refine .ifAdmissible hi ?_
    cases espPolicy s d with
    | fault => exact neverRefused_raise _
    | sequential | before =>
      exact .andThen (memRead_ne_refused s _) fun v =>
        .andThen (store_ne_refused (checkDest_eq_none.mp hwf).1 _ v) fun _ => neverRefused_next _
  | cmp a b =>
    exact .ifAdmissible hi (.andThen (val_ne_refused s a) fun _ => .andThen (val_ne_refused s b) fun _ =>
      neverRefused_next _)
  | jmp src => exact .ifAdmissible hi (.andThen (val_ne_refused s src) fun _ => neverRefused_next _)
  | call src =>
    refine .ifAdmissible hi ?_
    cases espPolicy s src with
    | fault => exact neverRefused_raise _
    | sequential =>
      exact .andThen (val_ne_refused _ src) fun _ => .andThen (pushWord_ne_refused s _) fun u =>
        .andThen (val_ne_refused u src) fun _ => neverRefused_next _
    | before =>
      exact .andThen (val_ne_refused s src) fun _ => .andThen (pushWord_ne_refused s _) fun _ => neverRefused_next _
  | ret => exact .ifAdmissible hi (.andThen (memRead_ne_refused s _) fun _ => neverRefused_next _)
  | j cc target => exact .ifAdmissible hi (neverRefused_next _)

/-- Under sound parameters only a final state takes no step: any other steps or faults (R255). -/
theorem step_next_or_fault {s : State} (hs : s.env.Sound) (hx : ¬ s.Final) :
    (∃ t, step s = .next t) ∨ ∃ f, step s = .fault f := by
  cases hi : s.env.instrAt s.pc with
  | none => exact .inr ⟨_, step_of_no_instr hx hi⟩
  | some i =>
    rw [step_of_instr hx hi]
    cases h : exec i s with
    | next t => exact .inl ⟨t, rfl⟩
    | fault f => exact .inr ⟨f, rfl⟩
    | refused q => exact absurd h (exec_neverRefused (hs.admissible_of_instrAt hi) q)

/-- A run keeps the invariant and the parameters. -/
theorem Reaches.keeps_inv_env {s t : State} (hs : s.Inv) (h : Reaches s t) : t.Inv ∧ t.env = s.env := by
  induction h with
  | here => exact ⟨hs, rfl⟩
  | next _ hstep ih =>
    obtain ⟨hinv, henv⟩ := ih
    exact ⟨step_keeps_inv hinv hstep, (step_keeps_env hstep).trans henv⟩

/-- A state that is final or steps does not fault. -/
theorem step_ne_fault {s : State} (h : s.Final ∨ SafeStep s) (f : Fault) : step s ≠ .fault f := by
  rcases h with h | ⟨t, h⟩
  · simp [step_of_final h]
  · simp [h]

end Sys2Proof.Machine

namespace Sys2Proof.Claims

open Sys2Proof Sys2Proof.Machine

/-- Settles O15: by induction along the run; a reached state that is not final is never refused. -/
theorem runsOfALaunchedMachine : Obligations.RunsOfALaunchedMachine := by
  intro s hs
  refine ⟨fun t h => h.keeps_inv_env hs, fun hsafe t f ht => step_ne_fault (hsafe t ht) f, fun hno t ht => ?_⟩
  refine or_iff_not_imp_left.mpr fun hx => ?_
  obtain ⟨⟨-, hsound⟩, -⟩ := ht.keeps_inv_env hs
  rcases step_next_or_fault hsound hx with hstep | ⟨f, hf⟩
  · exact hstep
  · exact absurd hf (hno t f ht)

end Sys2Proof.Claims
end

section
/-! Registers, condition codes and comparison (R21, R22, R35, R36). -/

namespace Sys2Proof.Machine

/-- The difference is the word whose signed value is the exact difference modulo 2^32. -/
theorem toInt_subValue (a v : Word) : (subValue a v).toInt = (a.toInt - v.toInt).bmod (2 ^ 32) := by
  rw [subValue, trunc32, BitVec.toInt_ofInt, Int.sub_eq_add_neg]

theorem word_toInt_bounds (a : Word) : -2 ^ 31 ≤ a.toInt ∧ a.toInt < 2 ^ 31 :=
  ⟨BitVec.le_toInt a, BitVec.toInt_lt⟩

theorem eq_minInt_iff {v : Word} : v = minInt ↔ v.toInt = -2 ^ 31 := by
  rw [← BitVec.toInt_inj]
  rfl

theorem subValue_eq_zero_iff {a v : Word} : subValue a v = 0#32 ↔ a.toInt = v.toInt := by
  have ha := word_toInt_bounds a
  have hv := word_toInt_bounds v
  rw [← BitVec.toInt_inj, toInt_subValue]
  simp only [Int.bmod, BitVec.toInt_zero]
  omega

theorem subFlags_ZF {a v : Word} : (subFlags a v (subValue a v)).ZF = true ↔ a.toInt = v.toInt := by
  simp [subFlags, subValue_eq_zero_iff]

theorem subFlags_SF {a v : Word} : (subFlags a v (subValue a v)).SF = true ↔ (a.toInt - v.toInt).bmod (2 ^ 32) < 0 := by
  rw [← toInt_subValue]
  simp [subFlags, BitVec.msb_eq_toInt]

theorem subFlags_OF {a v : Word} :
    (subFlags a v (subValue a v)).OF = true ↔
      ((a.toInt < 0 ↔ 0 < v.toInt) ∧ ¬((a.toInt - v.toInt).bmod (2 ^ 32) < 0 ↔ 0 < v.toInt)) ∨ v.toInt = -2 ^ 31 := by
  rw [← toInt_subValue, ← eq_minInt_iff]
  simp [subFlags, subOverflow, BitVec.msb_eq_toInt]

/-- SF differs from OF exactly for a smaller SRC1, where SRC2 is not MIN_INT or SRC1 is not negative (R36). -/
theorem subFlags_SF_ne_OF {a v : Word} (h : v ≠ minInt ∨ 0 ≤ a.toInt) :
    (subFlags a v (subValue a v)).SF ≠ (subFlags a v (subValue a v)).OF ↔ a.toInt < v.toInt := by
  have ha := word_toInt_bounds a
  have hv := word_toInt_bounds v
  rw [ne_eq, eq_minInt_iff] at h
  rw [ne_eq, Bool.eq_iff_iff, subFlags_SF, subFlags_OF]
  simp only [Int.bmod]
  omega

/-- Comparing a negative word with MIN_INT (R36). -/
theorem subFlags_of_minInt {a v : Word} (hv : v = minInt) (ha : a.toInt < 0) :
    (subFlags a v (subValue a v)).SF = false ∧ (subFlags a v (subValue a v)).OF = true := by
  have hb := word_toInt_bounds a
  rw [eq_minInt_iff] at hv
  rw [← Bool.not_eq_true, subFlags_SF, subFlags_OF]
  simp only [Int.bmod]
  omega

/-- Cmp sets the flags of the difference and falls through (R210). -/
theorem eq_of_exec_cmp {o₁ o₂ : Operand} {s t : State} {a v : Word} (ha : val s o₁ = .next a) (hv : val s o₂ = .next v)
    (h : exec (.cmp o₁ o₂) s = .next t) : t = (s.withFlags (subFlags a v (subValue a v))).advance := by
  obtain ⟨-, h⟩ := ifAdmissible_eq_next.mp (show ifAdmissible (.cmp o₁ o₂) s _ = .next t from h)
  simpa [ha, hv] using h.symm

end Sys2Proof.Machine

namespace Sys2Proof.Claims

open Sys2Proof Sys2Proof.Machine

/-- Settles O19: a register reads what was last written to it, and every other register what it held. -/
theorem registersAreIndependent : Obligations.RegistersAreIndependent := fun s r _ v =>
  ⟨s.getReg_setReg_same r v, RegFile.get_set_ne s.regs v, rfl, rfl, rfl⟩

/-- Settles O24: each code's function of the flags, read as a proposition. -/
theorem conditionCodes : Obligations.ConditionCodes := by
  intro f
  have hne : (f.SF != f.OF) = true ↔ f.SF ≠ f.OF := bne_iff_ne
  have hle : f.cond .sle = true ↔ f.SF ≠ f.OF ∨ f.ZF = true := by rw [Flags.cond, Bool.or_eq_true, hne]
  have hnot : (!f.ZF) = true ↔ f.ZF = false := by rw [Bool.not_eq_true']
  refine ⟨.rfl, .rfl, hnot, hnot, hne, beq_iff_eq, hle, ?_⟩
  rw [← hle, Bool.not_eq_true, ← Bool.not_eq_true']
  rfl

/-- Settles O25: Cmp leaves the flags of the difference, whose ZF tells equality and whose SF and OF differ exactly for a
smaller SRC1, but where a negative SRC1 meets MIN_INT. -/
theorem comparisonMeaning : Obligations.ComparisonMeaning := by
  intro o₁ o₂ s t a v ha hv h
  have hflags : t.flags = subFlags a v (subValue a v) := by rw [eq_of_exec_cmp ha hv h]; rfl
  have hZF : t.flags.ZF = true ↔ a.toInt = v.toInt := by rw [hflags, subFlags_ZF]
  obtain ⟨heq, hzero, hnotEq, hnotZero, hslt, hsge, hsle, hsgt⟩ := conditionCodes t.flags
  rw [← Bool.not_eq_true, hZF] at hnotEq hnotZero
  refine ⟨heq.trans hZF, hzero.trans hZF, hnotEq, hnotZero, fun hord => ?_, fun hmin hneg => ?_⟩
  · have hlt : t.flags.SF ≠ t.flags.OF ↔ a.toInt < v.toInt := by rw [hflags]; exact subFlags_SF_ne_OF hord
    rw [hslt, hsge, hsle, hsgt, hZF, ← not_ne_iff (a := t.flags.SF), hlt]
    omega
  · obtain ⟨hSF, hOF⟩ : t.flags.SF = false ∧ t.flags.OF = true := by rw [hflags]; exact subFlags_of_minInt hmin hneg
    have hne : t.flags.SF ≠ t.flags.OF := by simp [hSF, hOF]
    exact ⟨hSF, hOF, hslt.mpr hne, hsle.mpr (.inl hne)⟩

end Sys2Proof.Claims
end

section
/-! Imul (R33, R135). -/

namespace Sys2Proof.Machine

theorem imulOverflow_eq_true {x : Int} : imulOverflow x = true ↔ x < -2 ^ 31 ∨ x > 2 ^ 31 - 1 := by
  simp [imulOverflow]

/-- Imul where SRC is read: the truncated product in DEST, its flags, and fall through. -/
theorem exec_imul_of_val {d : Reg} {src : Operand} {s : State} {v : Word} (hi : Admissible (.imul d src) s)
    (hv : val s src = .next v) :
    exec (.imul d src) s =
      .next ((s.setReg d (trunc32 (mulExact (s.getReg d) v))).withMulFlags (mulExact (s.getReg d) v)).advance := by
  simp [exec, execImul, ifAdmissible_of_admissible hi, hv]

/-- Imul faults where the read of SRC does. -/
theorem exec_imul_of_fault {d : Reg} {src : Operand} {s : State} {f : Fault} (hi : Admissible (.imul d src) s)
    (hf : operandFault s src = some f) : exec (.imul d src) s = .fault f := by
  simp [exec, execImul, ifAdmissible_of_admissible hi, val_eq_fault.mpr hf]

/-- Writing a register writes no other place. -/
theorem onlyWrites_setReg (s : State) (r : Reg) (v : Word) : OnlyWrites s (s.setReg r v) [.reg r] :=
  ⟨fun _ hq => RegFile.get_set_ne s.regs v (by simpa using hq), fun _ _ => rfl, rfl⟩

end Sys2Proof.Machine

namespace Sys2Proof.Claims

open Sys2Proof Sys2Proof.Machine

/-- Settles O29: the state Imul answers is the register write, the product's flags and the fall through. -/
theorem imulResult : Obligations.ImulResult := by
  intro d src s hi
  refine ⟨fun v hv => ⟨_, exec_imul_of_val hi hv, ?_⟩, fun f => exec_imul_of_fault hi⟩
  exact ⟨by simp [mulExact], imulOverflow_eq_true, rfl, rfl, rfl, rfl, onlyWrites_setReg s d _⟩

end Sys2Proof.Claims
end

section
/-! Who reads the flags (R30). `SameButFlags r r'` relates the answers of one operation under two settings of the flags; every
operation but the condition of J and Setb keeps the relation. -/

namespace Sys2Proof.Machine

/-- Where `r` answers a next state, `r'` answers that state but for the flags; where `r` faults, so does `r'`. -/
def SameButFlags (r r' : Result State) : Prop :=
  (∀ t, r = .next t → ∃ g, r' = .next (t.withFlags g)) ∧ ∀ e, r = .fault e → r' = .fault e

/-- The condition code through which an instruction reads the flags, if it does (R30). -/
def condRead : Instr → Option CC
  | .setb _ cc | .j cc _ => some cc
  | .neg _ | .add _ _ | .sub _ _ | .imul _ _ | .not _ | .and _ _ | .or _ _ | .xor _ _ => none
  | .sar _ _ | .shl _ _ | .shr _ _ | .lea _ _ | .mov _ _ | .push _ | .pop _ | .cmp _ _ | .jmp _ | .call _ | .ret => none

theorem val_withFlags (s : State) (f : Flags) (o : Operand) : val (s.withFlags f) o = val s o := by
  cases o <;> rfl

theorem shiftAmount_withFlags (s : State) (f : Flags) (o : Operand) : shiftAmount (s.withFlags f) o = shiftAmount s o := by
  rw [shiftAmount, val_withFlags]
  rfl

theorem espPolicy_withFlags (s : State) (f : Flags) (o : Operand) : espPolicy (s.withFlags f) o = espPolicy s o := rfl

theorem sameButFlags_next (t : State) (g : Flags) : SameButFlags (.next t) (.next (t.withFlags g)) := by
  simp [SameButFlags]

theorem sameButFlags_raise (e : Fault) : SameButFlags (raise e) (raise e) := by
  simp [SameButFlags, raise]

/-- After a part that answers alike in both runs. -/
theorem sameButFlags_andThen {α : Type} (r : Result α) {k k' : α → Result State} (hk : ∀ a, SameButFlags (k a) (k' a)) :
    SameButFlags (andThen r k) (andThen r k') := by
  cases r with
  | next a => exact hk a
  | fault e => exact sameButFlags_raise e
  | refused q => simp [SameButFlags]

/-- After a part whose next states differ in the flags. -/
theorem SameButFlags.andThen {r r' : Result State} {k k' : State → Result State} (hr : SameButFlags r r')
    (hk : ∀ t g, SameButFlags (k t) (k' (t.withFlags g))) : SameButFlags (andThen r k) (andThen r' k') := by
  obtain ⟨hnext, hfault⟩ := hr
  cases r with
  | next t =>
    obtain ⟨g, rfl⟩ := hnext t rfl
    exact hk t g
  | fault e =>
    obtain rfl := hfault e rfl
    exact sameButFlags_raise e
  | refused q => simp [SameButFlags]

theorem SameButFlags.ifAdmissible {i : Instr} {s : State} {f : Flags} {r r' : Result State} (h : SameButFlags r r') :
    SameButFlags (ifAdmissible i s r) (ifAdmissible i (s.withFlags f) r') := by
  obtain ⟨hnext, hfault⟩ := h
  refine ⟨fun t ht => ?_, fun e he => ?_⟩
  · obtain ⟨hi, hr⟩ := ifAdmissible_eq_next.mp ht
    obtain ⟨g, hg⟩ := hnext t hr
    exact ⟨g, ifAdmissible_eq_next.mpr ⟨hi, hg⟩⟩
  · obtain ⟨hi, hr⟩ := ifAdmissible_eq_fault.mp he
    exact ifAdmissible_eq_fault.mpr ⟨hi, hfault e hr⟩

theorem memWrite_sameButFlags (s : State) (f : Flags) (a v : Word) :
    SameButFlags (s.memWrite a v) ((s.withFlags f).memWrite a v) := by
  cases h : s.env.accessFault a with
  | none =>
    rw [memWrite_of_ok v h, memWrite_of_ok v (s := s.withFlags f) h]
    exact sameButFlags_next (s.withMem _) f
  | some e =>
    rw [memWrite_of_fault v h, memWrite_of_fault v (s := s.withFlags f) h]
    exact sameButFlags_raise e

theorem store_sameButFlags (s : State) (f : Flags) (d : Operand) (v : Word) :
    SameButFlags (store s d v) (store (s.withFlags f) d v) := by
  cases d with
  | reg r => exact sameButFlags_next (s.setReg r v) f
  | ind i => exact memWrite_sameButFlags s f _ v
  | imm n | lbl l => simp [SameButFlags, store]

theorem pushWord_sameButFlags (s : State) (f : Flags) (v : Word) :
    SameButFlags (s.pushWord v) ((s.withFlags f).pushWord v) :=
  (memWrite_sameButFlags s f s.pushAddr v).andThen fun t g => sameButFlags_next (t.setReg .esp s.pushAddr) g

/-- A read-modify-write computes the same value whatever flags it starts from and leaves. -/
theorem modifyDest_sameButFlags (s : State) (f : Flags) (d : Operand) (value : Word → Word) (fl fl' : Word → Flags) :
    SameButFlags (modifyDest s d value fl) (modifyDest (s.withFlags f) d value fl') := by
  rw [modifyDest, modifyDest, val_withFlags]
  exact sameButFlags_andThen _ fun x => (store_sameButFlags s f d (value x)).andThen fun t g =>
    sameButFlags_next (t.withFlags (fl x)).advance (fl' x)

theorem exec_sameButFlags (i : Instr) (s : State) (f : Flags)
    (h : ∀ cc, condRead i = some cc → f.cond cc = s.flags.cond cc) :
    SameButFlags (exec i s) (exec i (s.withFlags f)) := by
  cases i with
  | neg d | not d => exact (modifyDest_sameButFlags s f d _ _ _).ifAdmissible
  | setb d cc =>
    rw [exec, exec, execSetb, execSetb, State.withFlags_flags, h cc rfl]
    exact (modifyDest_sameButFlags s f d _ _ _).ifAdmissible
  | add d src | sub d src | and d src | or d src | xor d src =>
    refine SameButFlags.ifAdmissible ?_
    rw [val_withFlags]
    exact sameButFlags_andThen _ fun v => modifyDest_sameButFlags s f d _ _ _
  | sar d amt | shl d amt | shr d amt =>
    refine SameButFlags.ifAdmissible ?_
    rw [shiftAmount_withFlags]
    exact sameButFlags_andThen _ fun n => modifyDest_sameButFlags s f d _ _ _
  | imul d src =>
    refine SameButFlags.ifAdmissible ?_
    rw [val_withFlags]
    exact sameButFlags_andThen _ fun v => sameButFlags_next
      ((s.setReg d (trunc32 (mulExact (s.getReg d) v))).withMulFlags (mulExact (s.getReg d) v)).advance _
  | lea d src => exact (sameButFlags_next (s.setReg d (ea s src)).advance f).ifAdmissible
  | mov d src =>
    refine SameButFlags.ifAdmissible ?_
    rw [val_withFlags]
    exact sameButFlags_andThen _ fun v => (store_sameButFlags s f d v).andThen fun t g => sameButFlags_next t.advance g
  | push src =>
    have hpush (v : Word) : SameButFlags (andThen (s.pushWord v) fun t => .next t.advance)
        (andThen ((s.withFlags f).pushWord v) fun t => .next t.advance) :=
      (pushWord_sameButFlags s f v).andThen fun t g => sameButFlags_next t.advance g
    refine SameButFlags.ifAdmissible ?_
    rw [espPolicy_withFlags]
    cases espPolicy s src with
    | fault => exact sameButFlags_raise _
    | sequential =>
      rw [← val_withFlags _ f]
      exact sameButFlags_andThen _ hpush
    | before =>
      rw [← val_withFlags s f]
      exact sameButFlags_andThen _ hpush
  | pop d =>
    refine SameButFlags.ifAdmissible ?_
    rw [espPolicy_withFlags]
    cases espPolicy s d with
    | fault => exact sameButFlags_raise _
    | sequential =>
      exact sameButFlags_andThen (s.memRead _) fun v => (store_sameButFlags s f d v).andThen fun t g =>
        sameButFlags_next t.popped.advance g
    | before =>
      exact sameButFlags_andThen (s.memRead _) fun v => (store_sameButFlags s.popped f d v).andThen fun t g =>
        sameButFlags_next t.advance g
  | cmp a b =>
    refine SameButFlags.ifAdmissible ?_
    rw [val_withFlags, val_withFlags]
    exact sameButFlags_andThen _ fun x => sameButFlags_andThen _ fun v =>
      sameButFlags_next (s.withFlags (subFlags x v (subValue x v))).advance _
  | jmp src =>
    refine SameButFlags.ifAdmissible ?_
    rw [val_withFlags]
    exact sameButFlags_andThen _ fun w => sameButFlags_next (s.jump w) f
  | call src =>
    refine SameButFlags.ifAdmissible ?_
    rw [espPolicy_withFlags]
    cases espPolicy s src with
    | fault => exact sameButFlags_raise _
    | sequential =>
      refine sameButFlags_andThen (val (s.setReg .esp s.pushAddr) src) fun _ =>
        (pushWord_sameButFlags s f s.npc).andThen fun u g => ?_
      rw [val_withFlags]
      exact sameButFlags_andThen _ fun w => sameButFlags_next (u.jump w) g
    | before =>
      rw [← val_withFlags s f]
      exact sameButFlags_andThen _ fun w => (pushWord_sameButFlags s f s.npc).andThen fun u g =>
        sameButFlags_next (u.jump w) g
  | ret =>
    exact SameButFlags.ifAdmissible (i := .ret) (s := s) (f := f)
      (sameButFlags_andThen (s.memRead _) fun w => sameButFlags_next (s.popped.jump w) f)
  | j cc target =>
    have hj : SameButFlags (.next (if s.flags.cond cc then s.jump (s.env.labelAddr target) else s.advance))
        (.next (if s.flags.cond cc then (s.withFlags f).jump (s.env.labelAddr target) else (s.withFlags f).advance)) := by
      split
      · exact sameButFlags_next (s.jump _) f
      · exact sameButFlags_next s.advance f
    rw [exec, exec, execJ, execJ, State.withFlags_flags, h cc rfl]
    exact hj.ifAdmissible

end Sys2Proof.Machine

namespace Sys2Proof.Claims

open Sys2Proof Sys2Proof.Machine

/-- The premise of O53: the condition code an instruction reads has the same truth under both flags. -/
theorem cond_eq_of_condRead {i : Instr} {s : State} {f : Flags}
    (h : (∀ cc l, i ≠ .j cc l) ∧ (∀ d cc, i ≠ .setb d cc) ∨
      ∃ cc, ((∃ l, i = .j cc l) ∨ ∃ d, i = .setb d cc) ∧ f.cond cc = s.flags.cond cc)
    {cc : CC} (hcc : condRead i = some cc) : f.cond cc = s.flags.cond cc := by
  rcases h with ⟨hj, hsetb⟩ | ⟨c, ⟨l, rfl⟩ | ⟨d, rfl⟩, hc⟩
  · cases i with
    | j c l => exact absurd rfl (hj c l)
    | setb d c => exact absurd rfl (hsetb d c)
    | _ => cases hcc
  · obtain rfl : c = cc := by simpa [condRead] using hcc
    exact hc
  · obtain rfl : c = cc := by simpa [condRead] using hcc
    exact hc

/-- Settles O53: only the condition code of J and Setb is computed from the flags. -/
theorem onlyJAndSetbReadFlags : Obligations.OnlyJAndSetbReadFlags :=
  fun i s f h => exec_sameButFlags i s f fun _ => cond_eq_of_condRead h

end Sys2Proof.Claims
end

section
/-! The words of data memory (R61, R63): what a word store leaves unchanged, and so what no step can reach, the code (R67). -/

namespace Sys2Proof.Machine

theorem Memory.readByte_writeWord_of_not_inWord (m : Memory) {a : Word} {x : Nat} (v : Word) (h : ¬ InWord a x) :
    (m.writeWord a.toNat v).readByte x = m.readByte x :=
  readByte_writeWord_ne m v (by simp only [InWord] at h; omega)

theorem not_inWord_of_inWord {a b : Word} {x : Nat} (ha : aligned a = true) (hb : aligned b = true) (hab : a ≠ b)
    (hx : InWord a x) : ¬ InWord b x := by
  have hdisj := aligned_disjoint ha hb hab
  simp only [InWord] at hx ⊢
  omega

/-- An access that passes the check is to no word of the code (R63, R67). -/
theorem ne_of_inCode_of_accessFault {e : Env} {a b : Word} (ha : e.inCode a = true) (hb : e.accessFault b = none) : a ≠ b := by
  rintro rfl
  obtain ⟨-, hvalid⟩ := accessFault_eq_none.mp hb
  simp [inCode_of_dataValid hvalid] at ha

theorem StoresAtMostOneWord.keeps_code {s t : State} (h : StoresAtMostOneWord s t) {a : Word} {x : Nat}
    (ha : aligned a = true) (hcode : s.env.inCode a = true) (hx : InWord a x) :
    t.mem.readByte x = s.mem.readByte x := by
  obtain hmem | ⟨b, v, hb, hmem⟩ := h
  · rw [hmem]
  · have hab := ne_of_inCode_of_accessFault hcode hb
    rw [hmem, Memory.readByte_writeWord_of_not_inWord _ v
      (not_inWord_of_inWord ha (accessFault_eq_none.mp hb).1 hab hx)]

theorem accessFault_of_misaligned {e : Env} {a : Word} (h : a.toNat % 4 ≠ 0) : e.accessFault a = some (.misaligned a) :=
  accessFault_eq_some.mpr (.inl ⟨by simp [aligned, h], rfl⟩)

theorem accessFault_of_not_dataValid {e : Env} {a : Word} (ha : a.toNat % 4 = 0) (h : e.dataValid a = false) :
    e.accessFault a = some (.invalidAddress a) :=
  accessFault_eq_some.mpr (.inr ⟨aligned_iff.mpr ha, h, rfl⟩)

theorem memRead_withMem_of_ok {s : State} {a : Word} (m : Memory) (h : s.env.accessFault a = none) :
    (s.withMem m).memRead a = .next (m.readWord a.toNat) := memRead_of_ok h

theorem memRead_withMem_of_fault {s : State} {a : Word} {f : Fault} (m : Memory) (h : s.env.accessFault a = some f) :
    (s.withMem m).memRead a = .fault f := memRead_of_fault h

/-- A read of another word answers as before the store, its faults included (R63). -/
theorem memRead_withMem_writeWord_ne (s : State) {a b : Word} (v : Word) (ha : aligned a = true) (hab : b ≠ a) :
    (s.withMem (s.mem.writeWord a.toNat v)).memRead b = s.memRead b := by
  cases hb : s.env.accessFault b with
  | some f => rw [memRead_of_fault hb, memRead_withMem_of_fault _ hb]
  | none =>
    have hdisj := aligned_disjoint ha (accessFault_eq_none.mp hb).1 hab.symm
    rw [memRead_of_ok hb, memRead_withMem_of_ok _ hb, Memory.readWord_writeWord_ne _ v hdisj]

theorem onlyWrites_writeWord (s : State) (a v : Word) :
    OnlyWrites s (s.withMem (s.mem.writeWord a.toNat v)) [.word a] :=
  ⟨fun _ _ => rfl, fun _ hx => Memory.readByte_writeWord_of_not_inWord _ v (hx a (by simp)), rfl⟩

end Sys2Proof.Machine

namespace Sys2Proof.Claims

open Sys2Proof Sys2Proof.Machine

/-- Settles O13: a step stores to one admitted word at most, and no word of the code is admitted. -/
theorem stepNeverWritesCode : Obligations.StepNeverWritesCode :=
  fun _ _ _ _ h ha hcode hx => (step_effect h).keeps_code (aligned_iff.mpr ha) hcode hx

/-- Settles O22: the access check decides which of the three cases it is; a store that passes it writes its word. -/
theorem memoryPrimitives : Obligations.MemoryPrimitives := by
  intro s a v
  refine ⟨fun ha => ?_, fun ha hd => ?_, fun ha hd => ?_⟩
  · have hf := accessFault_of_misaligned (e := s.env) ha
    exact ⟨memRead_of_fault hf, memWrite_of_fault v hf⟩
  · have hf := accessFault_of_not_dataValid ha hd
    exact ⟨memRead_of_fault hf, memWrite_of_fault v hf⟩
  · have haligned := aligned_iff.mpr ha
    have hok := accessFault_eq_none.mpr ⟨haligned, hd⟩
    refine ⟨memRead_of_ok hok, fun hm => ⟨_, memWrite_of_ok v hok, ?_, fun b hb => ?_, onlyWrites_writeWord s a v, rfl, rfl⟩⟩
    · rw [memRead_withMem_of_ok _ hok, Memory.readWord_writeWord_same v hm (aligned_bound haligned)]
    · exact memRead_withMem_writeWord_ne s v haligned hb

end Sys2Proof.Claims
end

section
/-! The stack (R76): a word pushed is read back at ESP, and moving ESP up again undoes the push, for Pop and for Ret. -/

namespace Sys2Proof.Machine

theorem memRead_esp_of_pushWord {s u : State} {v : Word} (hm : s.mem.wf = true) (h : s.pushWord v = .next u) :
    u.memRead (u.getReg .esp) = .next v := by
  have hread := readWord_esp_of_pushWord hm h
  obtain ⟨ha, rfl⟩ := pushWord_eq_next.mp h
  exact memRead_eq_next.mpr ⟨by simpa using ha, hread.symm⟩

theorem getReg_popped_of_pushWord {s u : State} {v : Word} (h : s.pushWord v = .next u) (r : Reg) :
    u.popped.getReg r = s.getReg r := by
  obtain ⟨-, rfl⟩ := pushWord_eq_next.mp h
  by_cases hr : r = .esp
  · subst hr
    simp [State.getReg_popped, State.pushAddr]
  · simp [State.getReg_popped, State.getReg_setReg, hr]

theorem flags_of_pushWord {s u : State} {v : Word} (h : s.pushWord v = .next u) : u.flags = s.flags :=
  (pushWord_effect s v u h).flags

/-- A Push whose operand does not depend on ESP pushes the operand's value and falls through (R192). -/
theorem exists_pushWord_of_exec_push {src : Operand} {s t : State} {v : Word} (hsrc : dependsOnEsp src = false)
    (hv : val s src = .next v) (h : exec (.push src) s = .next t) : ∃ u, s.pushWord v = .next u ∧ t = u.advance := by
  obtain ⟨-, h⟩ := ifAdmissible_eq_next.mp (show ifAdmissible (.push src) s _ = .next t from h)
  simp only [espPolicy, hsrc, hv, andThen_next] at h
  obtain ⟨u, hu, ht⟩ := andThen_eq_next.mp h
  exact ⟨u, hu, by simpa using ht.symm⟩

/-- Pop into a register other than ESP (R193). -/
theorem exec_pop_reg {s : State} {q : Reg} {v : Word} (hq : q ≠ .esp) (hv : s.memRead (s.getReg .esp) = .next v) :
    exec (.pop (.reg q)) s = .next (s.popped.setReg q v).advance := by
  rw [exec, execPop, ifAdmissible_of_admissible ⟨rfl, rfl⟩, hv]
  simp [espPolicy, dependsOnEsp, hq, store]

/-- Ret jumps to the word at ESP (R213). -/
theorem exec_ret_of_memRead {s : State} {v : Word} (hv : s.memRead (s.getReg .esp) = .next v) :
    exec .ret s = .next (s.popped.jump v) := by
  rw [exec, execRet, ifAdmissible_of_admissible ⟨rfl, rfl⟩, hv, andThen_next]

end Sys2Proof.Machine

namespace Sys2Proof.Claims

open Sys2Proof Sys2Proof.Machine

/-- Settles O44: Pop reads the word pushed, and ESP returns to where it was. -/
theorem pushThenPop : Obligations.PushThenPop := by
  intro src q s t v hm hq hsrc hv h
  obtain ⟨u, hu, rfl⟩ := exists_pushWord_of_exec_push hsrc hv h
  have hread : u.advance.memRead (u.advance.getReg .esp) = .next v := memRead_esp_of_pushWord (u := u) hm hu
  refine ⟨_, exec_pop_reg hq hread, by simp, fun r hr => ?_, flags_of_pushWord (u := u) hu⟩
  calc ((u.advance.popped.setReg q v).advance).getReg r
      = u.popped.getReg r := RegFile.get_set_ne _ v hr
    _ = s.getReg r := getReg_popped_of_pushWord hu r

/-- Settles O50: Call pushes `npc` under every policy, and Ret reads it back into EIP. -/
theorem callThenRet : Obligations.CallThenRet := by
  intro src s t hm h
  obtain ⟨u, w, hu, rfl⟩ := exists_pushWord_of_exec_call h
  have hread : (u.jump w).memRead ((u.jump w).getReg .esp) = .next s.npc := memRead_esp_of_pushWord (u := u) hm hu
  exact ⟨_, exec_ret_of_memRead hread, rfl, getReg_popped_of_pushWord (u := u) hu, flags_of_pushWord (u := u) hu⟩

end Sys2Proof.Claims
end

section
/-! The frame of an instruction (R62, R189): `Frame rs w s t` says which registers and which word of memory may differ from
`s` to `t`. Register writes, word stores and their sequences have frames, and `writtenRegs` and `storedWord` are the frame of
the whole instruction. -/

namespace Sys2Proof.Machine

open Sys2Proof.Claims

/-- From `s` to `t` no register changed but those of `rs`, no byte of memory outside the word at `w`, and nothing was drawn. -/
structure Frame (rs : List Reg) (w : Option Word) (s t : State) : Prop where
  regs : ∀ r, r ∉ rs → t.getReg r = s.getReg r
  mem : ∀ x : Nat, (∀ a, w = some a → ¬ InWord a x) → t.mem.readByte x = s.mem.readByte x
  draws : t.draws = s.draws

/-- The frame of the instruction `i`, of which Imul alone draws (R33). -/
structure ExecFrame (i : Instr) (s t : State) : Prop where
  regs : ∀ r, r ∉ writtenRegs i → t.getReg r = s.getReg r
  mem : ∀ x : Nat, (∀ a, storedWord s i = some a → ¬ InWord a x) → t.mem.readByte x = s.mem.readByte x
  draws : (∀ r o, i ≠ .imul r o) → t.draws = s.draws

theorem Frame.refl (rs : List Reg) (w : Option Word) (s : State) : Frame rs w s s :=
  ⟨fun _ _ => rfl, fun _ _ => rfl, rfl⟩

theorem Frame.trans {rs : List Reg} {w : Option Word} {s t u : State} (h : Frame rs w s t) (h' : Frame rs w t u) :
    Frame rs w s u :=
  ⟨fun r hr => (h'.regs r hr).trans (h.regs r hr), fun x hx => (h'.mem x hx).trans (h.mem x hx), h'.draws.trans h.draws⟩

theorem Frame.cons {rs : List Reg} {w : Option Word} {s t : State} (r : Reg) (h : Frame rs w s t) : Frame (r :: rs) w s t :=
  ⟨fun q hq => h.regs q fun hmem => hq (.tail r hmem), h.mem, h.draws⟩

theorem frame_setReg (s : State) (r : Reg) (v : Word) (rs : List Reg) (w : Option Word) :
    Frame (r :: rs) w s (s.setReg r v) :=
  ⟨fun _ hq => RegFile.get_set_ne s.regs v (List.ne_of_not_mem_cons hq), fun _ _ => rfl, rfl⟩

theorem frame_writeWord (s : State) (a v : Word) (rs : List Reg) :
    Frame rs (some a) s (s.withMem (s.mem.writeWord a.toNat v)) :=
  ⟨fun _ _ => rfl, fun _ hx => Memory.readByte_writeWord_of_not_inWord _ v (hx a rfl), rfl⟩

theorem frame_popped (s : State) (rs : List Reg) (w : Option Word) : Frame (.esp :: rs) w s s.popped :=
  frame_setReg s .esp _ rs w

theorem store_frame (s : State) (d : Operand) (v : Word) :
    Ensures (Frame (locRegs d) (locWord s d) s) (store s d v) := by
  intro t h
  rcases store_eq_next.mp h with ⟨r, rfl, rfl⟩ | ⟨i, rfl, -, rfl⟩
  · exact frame_setReg s r v [] none
  · exact frame_writeWord s (ea s i) v []

theorem pushWord_frame (s : State) (v : Word) : Ensures (Frame [.esp] (some s.pushAddr) s) (s.pushWord v) := by
  intro t h
  obtain ⟨-, rfl⟩ := pushWord_eq_next.mp h
  exact (frame_writeWord s s.pushAddr v [.esp]).trans (frame_setReg _ .esp _ [] _)

/-- EIP is outside the frame, so an instruction may end by any jump. -/
theorem Frame.jump {i : Instr} {rs : List Reg} {w : Option Word} {s t : State} (v : Word) (h : Frame rs w s t)
    (hregs : writtenRegs i = rs := by rfl) (hword : storedWord s i = w := by rfl) : ExecFrame i s (t.jump v) := by
  subst hregs hword
  exact ⟨h.regs, h.mem, fun _ => h.draws⟩

theorem Frame.advance {i : Instr} {rs : List Reg} {w : Option Word} {s t : State} (h : Frame rs w s t)
    (hregs : writtenRegs i = rs := by rfl) (hword : storedWord s i = w := by rfl) : ExecFrame i s t.advance :=
  h.jump t.npc hregs hword

theorem modifyDest_frame {i : Instr} {s : State} {d : Operand} (g : Word → Word) (fl : Word → Flags)
    (hregs : writtenRegs i = locRegs d) (hword : storedWord s i = locWord s d) :
    Ensures (ExecFrame i s) (modifyDest s d g fl) := by
  intro t h
  obtain ⟨x, u, -, hu, rfl⟩ := modifyDest_eq_next.mp h
  obtain ⟨hr, hm, hd⟩ := store_frame s d (g x) u hu
  exact Frame.advance (t := u.withFlags (fl x)) ⟨hr, hm, hd⟩ hregs hword

theorem exec_frame (i : Instr) (s : State) : Ensures (ExecFrame i s) (exec i s) := by
  cases i with
  | neg d | not d | setb d cc => exact (modifyDest_frame _ _ rfl rfl).ifAdmissible
  | add d src | sub d src | and d src | or d src | xor d src | sar d src | shl d src | shr d src =>
    exact (ensures_andThen fun _ _ => modifyDest_frame _ _ rfl rfl).ifAdmissible
  | imul d src =>
    refine (ensures_andThen fun v _ => ensures_next.mpr ?_).ifAdmissible
    have hframe := frame_setReg s d (trunc32 (mulExact (s.getReg d) v)) [] none
    exact ⟨hframe.regs, hframe.mem, fun hne => absurd rfl (hne d src)⟩
  | lea d src => exact (ensures_next.mpr (frame_setReg s d (ea s src) [] none).advance).ifAdmissible
  | mov d src =>
    exact (ensures_andThen fun v _ => (store_frame s d v).andThen fun t ht =>
      ensures_next.mpr (ht.advance)).ifAdmissible
  | push src =>
    have hpush (v : Word) : Ensures (ExecFrame (.push src) s) (andThen (s.pushWord v) fun t => .next t.advance) :=
      (pushWord_frame s v).andThen fun t ht => ensures_next.mpr (ht.advance)
    refine Ensures.ifAdmissible ?_
    cases espPolicy s src with
    | fault => exact ensures_raise _
    | sequential | before => exact ensures_andThen fun v _ => hpush v
  | pop d =>
    refine Ensures.ifAdmissible ?_
    cases hp : espPolicy s d with
    | fault => exact ensures_raise _
    | sequential =>
      have hw : storedWord s (.pop d) = locWord s d := by simp [storedWord, hp]
      exact ensures_andThen fun v _ => (store_frame s d v).andThen fun t ht =>
        ensures_next.mpr (((ht.cons .esp).trans (frame_popped t _ _)).advance rfl hw)
    | before =>
      have hw : storedWord s (.pop d) = locWord s.popped d := by simp [storedWord, hp]
      exact ensures_andThen fun v _ => (store_frame s.popped d v).andThen fun t ht =>
        ensures_next.mpr (((frame_popped s _ _).trans (ht.cons .esp)).advance rfl hw)
  | cmp a b =>
    exact (ensures_andThen fun _ _ => ensures_andThen fun _ _ =>
      ensures_next.mpr ⟨fun _ _ => rfl, fun _ _ => rfl, fun _ => rfl⟩).ifAdmissible
  | jmp src => exact (ensures_andThen fun w _ => ensures_next.mpr ((Frame.refl [] none s).jump w)).ifAdmissible
  | call src =>
    refine Ensures.ifAdmissible ?_
    cases espPolicy s src with
    | fault => exact ensures_raise _
    | sequential =>
      exact ensures_andThen fun _ _ => (pushWord_frame s s.npc).andThen fun u hu =>
        ensures_andThen fun w _ => ensures_next.mpr (hu.jump w)
    | before =>
      exact ensures_andThen fun w _ => (pushWord_frame s s.npc).andThen fun u hu => ensures_next.mpr (hu.jump w)
  | ret =>
    exact Ensures.ifAdmissible (i := .ret) (s := s) (ensures_andThen fun w _ =>
      ensures_next.mpr ((frame_popped s [] none).jump w))
  | j cc target =>
    refine Ensures.ifAdmissible (i := .j cc target) (s := s) (ensures_next.mpr ?_)
    split
    · exact (Frame.refl [] none s).jump _
    · exact (Frame.refl [] none s).advance

end Sys2Proof.Machine

namespace Sys2Proof.Claims

open Sys2Proof Sys2Proof.Machine

/-- Settles O51: the frame of every instruction is `writtenRegs` and `storedWord`. -/
theorem instructionFrame : Obligations.InstructionFrame := by
  intro i s t h
  obtain ⟨hregs, hmem, hdraws⟩ := exec_frame i s t h
  exact ⟨hregs, hmem, exec_keeps_env i s t h, hdraws⟩

end Sys2Proof.Claims
end

section
/-! Narrowing `DataValid` (R69). `Follows R r r'` relates an operation of the default machine, `r`, to the same operation of the
narrowed one, `r'`: the access check is the only place where they part, and there the narrowed machine faults. -/

namespace Sys2Proof.Machine

open Sys2Proof.Claims

/-- Whatever `r'` answers, `r` answers something that `R` relates to it. -/
def Follows {α : Type} (R : α → α → Prop) (r r' : Result α) : Prop := Ensures (fun b => ∃ a, r = .next a ∧ R a b) r'

/-- `u` is the default machine's state `t`, narrowed. -/
def NarrowOf (ws : List Window) (t u : State) : Prop := t.env.dataWindows = none ∧ u = narrow ws t

theorem follows_next {α : Type} {R : α → α → Prop} {a b : α} (h : R a b) : Follows R (.next a) (.next b) :=
  ensures_next.mpr ⟨a, rfl, h⟩

theorem follows_raise {α : Type} {R : α → α → Prop} (r : Result α) (f : Fault) : Follows R r (raise f) :=
  ensures_raise f

theorem follows_refl {α : Type} (r : Result α) : Follows Eq r r := fun a h => ⟨a, h, rfl⟩

theorem follows_andThen {α β : Type} {R : α → α → Prop} {Q : β → β → Prop} {r r' : Result α} {k k' : α → Result β}
    (hr : Follows R r r') (hk : ∀ a a', R a a' → Follows Q (k a) (k' a')) :
    Follows Q (andThen r k) (andThen r' k') := by
  refine Ensures.andThen hr fun a' ha' b hb => ?_
  obtain ⟨a, hra, hR⟩ := ha'
  obtain ⟨c, hc, hQ⟩ := hk a a' hR b hb
  exact ⟨c, andThen_eq_next.mpr ⟨a, hra, hc⟩, hQ⟩

/-- After a value that both machines read. -/
theorem Follows.andThen_value {α β : Type} {Q : β → β → Prop} {r r' : Result α} {k k' : α → Result β}
    (hr : Follows Eq r r') (hk : ∀ a, Follows Q (k a) (k' a)) : Follows Q (andThen r k) (andThen r' k') :=
  follows_andThen hr fun a _ h => h ▸ hk a

/-- After a state that is the narrowed one in the narrowed machine. -/
theorem Follows.andThen_state {β : Type} {ws : List Window} {Q : β → β → Prop} {r r' : Result State}
    {k k' : State → Result β} (hr : Follows (NarrowOf ws) r r')
    (hk : ∀ t, t.env.dataWindows = none → Follows Q (k t) (k' (narrow ws t))) :
    Follows Q (andThen r k) (andThen r' k') :=
  follows_andThen hr fun t _ ⟨ht, hu⟩ => hu ▸ hk t ht

/-- Admission looks at the labels, never at `DataValid`. -/
theorem Follows.ifAdmissible {ws : List Window} {i : Instr} {s : State} {r r' : Result State}
    (h : Follows (NarrowOf ws) r r') :
    Follows (NarrowOf ws) (ifAdmissible i s r) (ifAdmissible i (narrow ws s) r') := by
  intro u hu
  obtain ⟨hi, hr'⟩ := ifAdmissible_eq_next.mp hu
  obtain ⟨t, ht, htu⟩ := h u hr'
  exact ⟨t, ifAdmissible_eq_next.mpr ⟨hi, ht⟩, htu⟩

theorem espPolicy_narrow (ws : List Window) (s : State) (o : Operand) : espPolicy (narrow ws s) o = espPolicy s o := rfl

section
variable {s : State} (ws : List Window) (hs : s.env.dataWindows = none)
include hs

/-- What the narrowed check admits, the default one admits (R69). -/
theorem accessFault_of_narrow {a : Word} (h : (narrow ws s).env.accessFault a = none) : s.env.accessFault a = none := by
  obtain ⟨halign, hvalid⟩ := accessFault_eq_none.mp h
  obtain ⟨hcode, -⟩ := dataValid_eq_true.mp hvalid
  exact accessFault_eq_none.mpr ⟨halign, dataValid_eq_true.mpr ⟨hcode, by simp [hs]⟩⟩

theorem memRead_narrow (a : Word) : Follows Eq (s.memRead a) ((narrow ws s).memRead a) := by
  intro v h
  obtain ⟨ha, rfl⟩ := memRead_eq_next.mp h
  exact ⟨_, memRead_of_ok (accessFault_of_narrow ws hs ha), rfl⟩

theorem memWrite_narrow (a v : Word) : Follows (NarrowOf ws) (s.memWrite a v) ((narrow ws s).memWrite a v) := by
  intro u h
  obtain ⟨ha, rfl⟩ := memWrite_eq_next.mp h
  exact ⟨_, memWrite_of_ok v (accessFault_of_narrow ws hs ha), hs, rfl⟩

theorem val_narrow (o : Operand) : Follows Eq (val s o) (val (narrow ws s) o) := by
  cases o with
  | imm n | lbl l | reg r => exact follows_next rfl
  | ind i => exact memRead_narrow ws hs (ea s i)

theorem store_narrow (d : Operand) (v : Word) : Follows (NarrowOf ws) (store s d v) (store (narrow ws s) d v) := by
  cases d with
  | reg r => exact follows_next ⟨hs, rfl⟩
  | ind i => exact memWrite_narrow ws hs (ea s i) v
  | imm n | lbl l => exact fun _ h => nomatch h

theorem shiftAmount_narrow (a : Operand) : Follows Eq (shiftAmount s a) (shiftAmount (narrow ws s) a) :=
  (val_narrow ws hs a).andThen_value fun _ => follows_refl _

theorem pushWord_narrow (v : Word) : Follows (NarrowOf ws) (s.pushWord v) ((narrow ws s).pushWord v) :=
  (memWrite_narrow ws hs s.pushAddr v).andThen_state fun _ ht => follows_next ⟨ht, rfl⟩

theorem modifyDest_narrow (d : Operand) (g : Word → Word) (fl : Word → Flags) :
    Follows (NarrowOf ws) (modifyDest s d g fl) (modifyDest (narrow ws s) d g fl) :=
  (val_narrow ws hs d).andThen_value fun x => (store_narrow ws hs d (g x)).andThen_state fun _ ht => follows_next ⟨ht, rfl⟩

theorem exec_narrow (i : Instr) : Follows (NarrowOf ws) (exec i s) (exec i (narrow ws s)) := by
  cases i with
  | neg d | not d | setb d cc => exact (modifyDest_narrow ws hs d _ _).ifAdmissible
  | add d src | sub d src | and d src | or d src | xor d src =>
    exact ((val_narrow ws hs src).andThen_value fun _ => modifyDest_narrow ws hs d _ _).ifAdmissible
  | sar d amt | shl d amt | shr d amt =>
    exact ((shiftAmount_narrow ws hs amt).andThen_value fun _ => modifyDest_narrow ws hs d _ _).ifAdmissible
  | imul d src => exact ((val_narrow ws hs src).andThen_value fun _ => follows_next ⟨hs, rfl⟩).ifAdmissible
  | lea d src => exact (follows_next ⟨hs, rfl⟩).ifAdmissible
  | mov d src =>
    exact .ifAdmissible ((val_narrow ws hs src).andThen_value fun v => (store_narrow ws hs d v).andThen_state fun _ ht =>
      follows_next ⟨ht, rfl⟩)
  | push src =>
    have hpush (v : Word) : Follows (NarrowOf ws) (andThen (s.pushWord v) fun t => .next t.advance)
        (andThen ((narrow ws s).pushWord v) fun t => .next t.advance) :=
      (pushWord_narrow ws hs v).andThen_state fun _ ht => follows_next ⟨ht, rfl⟩
    refine Follows.ifAdmissible ?_
    rw [espPolicy_narrow]
    cases espPolicy s src with
    | fault => exact follows_raise _ _
    | sequential => exact (val_narrow (s := s.setReg .esp s.pushAddr) ws hs src).andThen_value hpush
    | before => exact (val_narrow ws hs src).andThen_value hpush
  | pop d =>
    refine Follows.ifAdmissible ?_
    rw [espPolicy_narrow]
    cases espPolicy s d with
    | fault => exact follows_raise _ _
    | sequential =>
      exact (memRead_narrow ws hs _).andThen_value fun v => (store_narrow ws hs d v).andThen_state fun _ ht =>
        follows_next ⟨ht, rfl⟩
    | before =>
      exact (memRead_narrow ws hs _).andThen_value fun v => (store_narrow (s := s.popped) ws hs d v).andThen_state
        fun _ ht => follows_next ⟨ht, rfl⟩
  | cmp a b =>
    exact ((val_narrow ws hs a).andThen_value fun _ => (val_narrow ws hs b).andThen_value fun _ =>
      follows_next ⟨hs, rfl⟩).ifAdmissible
  | jmp src => exact ((val_narrow ws hs src).andThen_value fun _ => follows_next ⟨hs, rfl⟩).ifAdmissible
  | call src =>
    refine Follows.ifAdmissible ?_
    rw [espPolicy_narrow]
    cases espPolicy s src with
    | fault => exact follows_raise _ _
    | sequential =>
      exact (val_narrow (s := s.setReg .esp s.pushAddr) ws hs src).andThen_value fun _ =>
        (pushWord_narrow ws hs s.npc).andThen_state fun u hu => (val_narrow ws hu src).andThen_value fun _ =>
          follows_next ⟨hu, rfl⟩
    | before =>
      exact (val_narrow ws hs src).andThen_value fun _ => (pushWord_narrow ws hs s.npc).andThen_state fun _ hu =>
        follows_next ⟨hu, rfl⟩
  | ret =>
    exact Follows.ifAdmissible (i := .ret) (s := s)
      ((memRead_narrow ws hs _).andThen_value fun _ => follows_next ⟨hs, rfl⟩)
  | j cc target =>
    refine Follows.ifAdmissible (i := .j cc target) (s := s) (follows_next ?_)
    rw [show (narrow ws s).flags = s.flags from rfl]
    split
    · exact ⟨hs, rfl⟩
    · exact ⟨hs, rfl⟩

end

end Sys2Proof.Machine

namespace Sys2Proof.Claims

open Sys2Proof Sys2Proof.Machine

/-- Settles O16: both machines fetch the same instruction, and exec of it follows. -/
theorem narrowingOnlyAddsFaults : Obligations.NarrowingOnlyAddsFaults := by
  intro s u ws hs h
  obtain ⟨hx, i, hi, hu⟩ := step_eq_next.mp h
  obtain ⟨t, ht, -, rfl⟩ := exec_narrow ws hs i u hu
  exact ⟨t, (step_of_instr (s := s) hx hi).trans ht, rfl⟩

end Sys2Proof.Claims
end

section
/-! The decoder's answers, case by case (R90, R104 to R106, R108): one equation per reason of refusal, and the terms it
accepts. -/

namespace Sys2Proof

theorem opcodeOfName_eq_none {n : String} : opcodeOfName n = none ↔ ∀ o : Opcode, o.name ≠ n := by
  constructor
  · rintro h o rfl
    simp at h
  · intro h
    cases ho : opcodeOfName n with
    | none => rfl
    | some o => exact absurd (name_of_opcodeOfName ho) (h o)

theorem decode_of_unknownName {n : String} (args : List Arg) (h : ∀ o : Opcode, o.name ≠ n) :
    decode ⟨n, args⟩ = .error (.unknownName n) := by
  simp [decode, opcodeOfName_eq_none.mpr h]

theorem decode_of_build_eq_none {o : Opcode} {args : List Arg} (h : build o args = none) :
    decode ⟨o.name, args⟩ = .error (.operandKinds o) := by
  simp [decode, h]

theorem decode_encode_of_illFormed {i : Instr} {w : IllFormed} (h : i.illFormed? = some w) :
    decode (encode i) = .error (.illFormed w) := by
  simp [decode, encode, build_opcode_args, h]

/-- What the decoder accepts, in terms of the encoder. -/
theorem decode_eq_ok_iff_encode {t : Term} {i : Instr} : decode t = .ok i ↔ encode i = t ∧ i.WellFormed := by
  constructor
  · intro h
    obtain ⟨o, ho, hb, hwf⟩ := decode_eq_ok.mp h
    obtain ⟨rfl, hargs⟩ := opcode_args_of_build hb
    exact ⟨by rw [encode, name_of_opcodeOfName ho, hargs], hwf⟩
  · rintro ⟨rfl, hwf⟩
    exact decode_encode hwf

end Sys2Proof

namespace Sys2Proof.Claims

open Sys2Proof

/-- Settles O1: an instruction's name selects its row, and its arguments fill that row's positions. -/
theorem decodeEncodeRoundTrip : Obligations.DecodeEncodeRoundTrip := fun _ => decode_encode

/-- Settles O2: an accepted term has the name and the arguments of the instruction it builds. -/
theorem decodeAcceptsOnlyEncodings : Obligations.DecodeAcceptsOnlyEncodings := fun _ _ => decode_eq_ok_iff_encode.mp

/-- Settles O3: each is the term of a well-formed instruction. -/
theorem writtenTermsDecode : Obligations.WrittenTermsDecode :=
  ⟨decode_encode (i := .imul .eax (.reg .ebx)) rfl, decode_encode (i := .xor (.reg .eax) (.reg .edx)) rfl,
    decode_encode (i := .shr (.reg .ebx) (.reg .ecx)) rfl,
    decode_encode (i := .lea .ebx ⟨some .eax, some (.eax, 2), some (.imm 1)⟩) rfl,
    decode_encode (i := .j .eq ⟨"done"⟩) rfl⟩

end Sys2Proof.Claims
end

section
/-! The static rules in the specification's words (R100 to R106): the model's tests are the predicates `Location`, `Amount`,
`BothMemory` and `IndexNotEsp`, and each format's check passes exactly on the operands that its row of R104 admits. -/

namespace Sys2Proof

open Sys2Proof.Claims

theorem isLoc_iff_location {o : Operand} : o.isLoc = true ↔ Location o := by
  cases o <;> simp [Operand.isLoc, Location]

theorem isAmount_iff_amount {a : Operand} : a.isAmount = true ↔ Amount a := by
  cases a <;> simp [Operand.isAmount, Amount]

theorem isMem_iff_exists_ind {o : Operand} : o.isMem = true ↔ ∃ i, o = .ind i := by
  cases o <;> simp [Operand.isMem]

theorem bothMemory_iff {a b : Operand} : a.isMem = true ∧ b.isMem = true ↔ BothMemory a b :=
  and_congr isMem_iff_exists_ind isMem_iff_exists_ind

theorem Ind.indexOk_iff {i : Ind} : i.indexOk = true ↔ IndexNotEsp i := by
  cases h : i.index <;> simp [Ind.indexOk, IndexNotEsp, h, Prod.ext_iff]

theorem Operand.indexOk_iff {o : Operand} : o.indexOk = true ↔ IfInd IndexNotEsp o := by
  cases o <;> simp [Operand.indexOk, IfInd, Ind.indexOk_iff]

theorem isLoc_eq_false {o : Operand} (hr : ∀ r, o ≠ .reg r) (hi : ∀ i, o ≠ .ind i) : o.isLoc = false := by
  rw [← Bool.not_eq_true, isLoc_iff_location]
  rintro (⟨r, h⟩ | ⟨i, h⟩)
  · exact hr r h
  · exact hi i h

theorem isAmount_eq_false {a : Operand} (hn : ∀ n, a ≠ .imm n) (hr : a ≠ .reg .ecx) : a.isAmount = false := by
  rw [← Bool.not_eq_true, isAmount_iff_amount]
  rintro (⟨n, h⟩ | h)
  · exact hn n h
  · exact hr h

/-! ### What each check answers, by the first rule broken -/

theorem checkDest_of_not_isLoc {d : Operand} (h : d.isLoc = false) : checkDest d = some .destNotLocation := by
  simp [checkDest, h]

theorem checkDestSrc_of_not_isLoc {d : Operand} (s : Operand) (h : d.isLoc = false) :
    checkDestSrc d s = some .destNotLocation := by
  simp [checkDestSrc, h]

theorem checkDestAmt_of_not_isLoc {d : Operand} (a : Operand) (h : d.isLoc = false) :
    checkDestAmt d a = some .destNotLocation := by
  simp [checkDestAmt, h]

theorem checkDestAmt_of_not_isAmount {d a : Operand} (hd : d.isLoc = true) (ha : a.isAmount = false) :
    checkDestAmt d a = some .shiftAmountForm := by
  simp [checkDestAmt, hd, ha]

/-- Where no other restriction is broken, what is left to break is R100. -/
theorem checkDest_of_isLoc {d : Operand} (h : d.isLoc = true) :
    checkDest d = if d.indexOk then none else some .indexEsp := by
  cases h' : d.indexOk <;> simp [checkDest, h, h']

theorem checkSrc_eq_ite (s : Operand) : checkSrc s = if s.indexOk then none else some .indexEsp := by
  cases h : s.indexOk <;> simp [checkSrc, h]

theorem checkDestSrc_of_isLoc {d s : Operand} (hd : d.isLoc = true) (hm : ¬(d.isMem = true ∧ s.isMem = true)) :
    checkDestSrc d s = if d.indexOk && s.indexOk then none else some .indexEsp := by
  cases h : d.indexOk && s.indexOk <;> simp [checkDestSrc, hd, hm, h]

theorem checkDestAmt_of_isLoc {d a : Operand} (hd : d.isLoc = true) (ha : a.isAmount = true) :
    checkDestAmt d a = if d.indexOk then none else some .indexEsp := by
  cases h : d.indexOk <;> simp [checkDestAmt, hd, ha, h]

theorem checkSrcSrc_of_not_mem {a b : Operand} (hm : ¬(a.isMem = true ∧ b.isMem = true)) :
    checkSrcSrc a b = if a.indexOk && b.indexOk then none else some .indexEsp := by
  cases h : a.indexOk && b.indexOk <;> simp [checkSrcSrc, hm, h]

/-! ### Format by format (R104) -/

theorem checkDest_iff {d : Operand} : checkDest d = none ↔ Location d ∧ IfInd IndexNotEsp d :=
  checkDest_eq_none.trans (and_congr isLoc_iff_location Operand.indexOk_iff)

theorem checkSrc_iff {s : Operand} : checkSrc s = none ↔ IfInd IndexNotEsp s :=
  checkSrc_eq_none.trans Operand.indexOk_iff

theorem checkDestSrc_iff {d s : Operand} :
    checkDestSrc d s = none ↔ Location d ∧ ¬ BothMemory d s ∧ IfInd IndexNotEsp d ∧ IfInd IndexNotEsp s := by
  rw [checkDestSrc_eq_none, isLoc_iff_location, bothMemory_iff, Operand.indexOk_iff, Operand.indexOk_iff]

theorem checkDestAmt_iff {d a : Operand} :
    checkDestAmt d a = none ↔ Location d ∧ Amount a ∧ IfInd IndexNotEsp d := by
  rw [checkDestAmt_eq_none, isLoc_iff_location, isAmount_iff_amount, Operand.indexOk_iff]

theorem checkSrcSrc_iff {a b : Operand} :
    checkSrcSrc a b = none ↔ ¬ BothMemory a b ∧ IfInd IndexNotEsp a ∧ IfInd IndexNotEsp b := by
  rw [checkSrcSrc_eq_none, bothMemory_iff, Operand.indexOk_iff, Operand.indexOk_iff]

theorem lea_illFormed (r : Reg) (i : Ind) :
    (Instr.lea r i).illFormed? = if i.indexOk then none else some .indexEsp := by
  cases h : i.indexOk <;> simp [Instr.illFormed?, h]

theorem lea_wellFormed_iff {r : Reg} {i : Ind} : (Instr.lea r i).WellFormed ↔ IndexNotEsp i := by
  rw [Instr.WellFormed, lea_illFormed, ← Ind.indexOk_iff]
  simp

theorem wellFormed_iff_meetsFormat (i : Instr) : i.WellFormed ↔ MeetsFormat IndexNotEsp i := by
  cases i with
  | neg d | not d | pop d | setb d cc => exact checkDest_iff
  | push s | jmp s | call s | imul r s => exact checkSrc_iff
  | add d s | sub d s | and d s | or d s | xor d s | mov d s => exact checkDestSrc_iff
  | sar d a | shl d a | shr d a => exact checkDestAmt_iff
  | lea r i => exact lea_wellFormed_iff
  | cmp a b => exact checkSrcSrc_iff
  | ret | j cc l => exact iff_of_true rfl trivial

/-- Where only R100 is left to break, the reason is `indexEsp` or none. -/
theorem illFormed_of_meetsFormat {i : Instr} (h : MeetsFormat (fun _ => True) i) :
    i.illFormed? = none ∨ i.illFormed? = some .indexEsp := by
  cases i with
  | neg d | not d | pop d | setb d cc =>
    obtain ⟨hd, -⟩ := h
    rw [Instr.illFormed?, checkDest_of_isLoc (isLoc_iff_location.mpr hd)]
    exact ite_eq_or_eq _ _ _
  | push s | jmp s | call s | imul r s =>
    rw [Instr.illFormed?, checkSrc_eq_ite]
    exact ite_eq_or_eq _ _ _
  | add d s | sub d s | and d s | or d s | xor d s | mov d s =>
    obtain ⟨hd, hm, -⟩ := h
    rw [Instr.illFormed?, checkDestSrc_of_isLoc (isLoc_iff_location.mpr hd) (bothMemory_iff.not.mpr hm)]
    exact ite_eq_or_eq _ _ _
  | sar d a | shl d a | shr d a =>
    obtain ⟨hd, ha, -⟩ := h
    rw [Instr.illFormed?, checkDestAmt_of_isLoc (isLoc_iff_location.mpr hd) (isAmount_iff_amount.mpr ha)]
    exact ite_eq_or_eq _ _ _
  | lea r i =>
    rw [lea_illFormed]
    exact ite_eq_or_eq _ _ _
  | cmp a b =>
    obtain ⟨hm, -⟩ := h
    rw [Instr.illFormed?, checkSrcSrc_of_not_mem (bothMemory_iff.not.mpr hm)]
    exact ite_eq_or_eq _ _ _
  | ret | j cc l => exact .inl rfl

/-- ESP is no index of a written argument (R100). -/
def Arg.indexOk : Arg → Bool
  | .opnd o => o.indexOk
  | .ind i => i.indexOk
  | .reg _ | .cc _ | .label _ => true

theorem indexOk_of_isAmount {a : Operand} (h : a.isAmount = true) : a.indexOk = true := by
  cases a with
  | ind i => simp [Operand.isAmount] at h
  | imm n | lbl l | reg r => rfl

/-- No argument of a well-formed instruction has ESP as an index. -/
theorem indexOk_of_mem_args {i : Instr} (h : i.WellFormed) : ∀ a ∈ i.args, a.indexOk = true := by
  cases i with
  | neg d | not d | pop d | setb d cc =>
    obtain ⟨-, hd⟩ := checkDest_eq_none.mp h
    simp [Instr.args, Arg.indexOk, hd]
  | push s | jmp s | call s | imul r s => simp [Instr.args, Arg.indexOk, checkSrc_eq_none.mp h]
  | add d s | sub d s | and d s | or d s | xor d s | mov d s =>
    obtain ⟨-, -, hd, hs⟩ := checkDestSrc_eq_none.mp h
    simp [Instr.args, Arg.indexOk, hd, hs]
  | sar d a | shl d a | shr d a =>
    obtain ⟨-, ha, hd⟩ := checkDestAmt_eq_none.mp h
    simp [Instr.args, Arg.indexOk, hd, indexOk_of_isAmount ha]
  | lea r i => simp [Instr.args, Arg.indexOk, Ind.indexOk_iff.mpr (lea_wellFormed_iff.mp h)]
  | cmp a b =>
    obtain ⟨-, ha, hb⟩ := checkSrcSrc_eq_none.mp h
    simp [Instr.args, Arg.indexOk, ha, hb]
  | ret | j cc l => simp [Instr.args, Arg.indexOk]

/-- A term one of whose arguments has ESP as an index is refused, whatever else is wrong with it. -/
theorem decode_of_not_indexOk {t : Term} {a : Arg} (ha : a ∈ t.args) (h : a.indexOk = false) :
    ∃ e, decode t = .error e := by
  cases hd : decode t with
  | error e => exact ⟨e, rfl⟩
  | ok i =>
    obtain ⟨rfl, hwf⟩ := decode_eq_ok_iff_encode.mp hd
    exact absurd (indexOk_of_mem_args hwf a ha) (by simp [h])

/-! ### The names of each format (R110): the instructions that a row of R104 lists, and the check they share -/

theorem exists_instr_of_f1d_name {n : String} (h : n ∈ ["Neg", "Not", "Pop"]) (d : Operand) :
    ∃ i, encode i = ⟨n, [.opnd d]⟩ ∧ i.illFormed? = checkDest d := by
  simp only [List.mem_cons, List.not_mem_nil, or_false] at h
  obtain rfl | rfl | rfl := h
  · exact ⟨.neg d, rfl, rfl⟩
  · exact ⟨.not d, rfl, rfl⟩
  · exact ⟨.pop d, rfl, rfl⟩

theorem exists_instr_of_f1s_name {n : String} (h : n ∈ ["Push", "Jmp", "Call"]) (s : Operand) :
    ∃ i, encode i = ⟨n, [.opnd s]⟩ ∧ i.illFormed? = checkSrc s := by
  simp only [List.mem_cons, List.not_mem_nil, or_false] at h
  obtain rfl | rfl | rfl := h
  · exact ⟨.push s, rfl, rfl⟩
  · exact ⟨.jmp s, rfl, rfl⟩
  · exact ⟨.call s, rfl, rfl⟩

theorem exists_instr_of_f2ds_name {n : String} (h : n ∈ ["Add", "Sub", "And", "Or", "Xor", "Mov"]) (d s : Operand) :
    ∃ i, encode i = ⟨n, [.opnd d, .opnd s]⟩ ∧ i.illFormed? = checkDestSrc d s := by
  simp only [List.mem_cons, List.not_mem_nil, or_false] at h
  obtain rfl | rfl | rfl | rfl | rfl | rfl := h
  · exact ⟨.add d s, rfl, rfl⟩
  · exact ⟨.sub d s, rfl, rfl⟩
  · exact ⟨.and d s, rfl, rfl⟩
  · exact ⟨.or d s, rfl, rfl⟩
  · exact ⟨.xor d s, rfl, rfl⟩
  · exact ⟨.mov d s, rfl, rfl⟩

theorem exists_instr_of_f2da_name {n : String} (h : n ∈ ["Sar", "Shl", "Shr"]) (d a : Operand) :
    ∃ i, encode i = ⟨n, [.opnd d, .opnd a]⟩ ∧ i.illFormed? = checkDestAmt d a := by
  simp only [List.mem_cons, List.not_mem_nil, or_false] at h
  obtain rfl | rfl | rfl := h
  · exact ⟨.sar d a, rfl, rfl⟩
  · exact ⟨.shl d a, rfl, rfl⟩
  · exact ⟨.shr d a, rfl, rfl⟩

/-- A term that an ill-formed instruction writes is refused with what its check answers. -/
theorem decode_of_exists_instr {t : Term} {c : Option IllFormed} {w : IllFormed}
    (h : ∃ i, encode i = t ∧ i.illFormed? = c) (hw : c = some w) : decode t = .error (.illFormed w) := by
  obtain ⟨i, rfl, hi⟩ := h
  exact decode_encode_of_illFormed (hi.trans hw)

/-- A term that an instruction writes whose check passes is accepted. -/
theorem decode_ok_of_exists_instr {t : Term} {c : Option IllFormed}
    (h : ∃ i, encode i = t ∧ i.illFormed? = c) (hc : c = none) : ∃ i, decode t = .ok i := by
  obtain ⟨i, rfl, hi⟩ := h
  exact ⟨i, decode_encode (hi.trans hc)⟩

/-- The term of an instruction whose operands meet its format is a term of that format. -/
theorem termMeetsFormat_encode {i : Instr} (h : MeetsFormat IndexNotEsp i) : TermMeetsFormat (encode i) := by
  cases i with
  | ret => exact .inl rfl
  | neg d | not d | pop d => exact .inr (.inl ⟨_, d, by simp [Instr.opcode, Opcode.name], rfl, h⟩)
  | push s | jmp s | call s => exact .inr (.inr (.inl ⟨_, s, by simp [Instr.opcode, Opcode.name], rfl, h⟩))
  | add d s | sub d s | and d s | or d s | xor d s | mov d s =>
    exact .inr (.inr (.inr (.inl ⟨_, d, s, by simp [Instr.opcode, Opcode.name], rfl, h⟩)))
  | imul r s => exact .inr (.inr (.inr (.inr (.inl ⟨r, s, rfl, h⟩))))
  | sar d a | shl d a | shr d a =>
    exact .inr (.inr (.inr (.inr (.inr (.inl ⟨_, d, a, by simp [Instr.opcode, Opcode.name], rfl, h⟩)))))
  | setb d cc => exact .inr (.inr (.inr (.inr (.inr (.inr (.inl ⟨d, cc, rfl, h⟩))))))
  | lea r i => exact .inr (.inr (.inr (.inr (.inr (.inr (.inr (.inl ⟨r, i, rfl, h⟩)))))))
  | cmp a b => exact .inr (.inr (.inr (.inr (.inr (.inr (.inr (.inr (.inl ⟨a, b, rfl, h⟩))))))))
  | j cc l => exact .inr (.inr (.inr (.inr (.inr (.inr (.inr (.inr (.inr ⟨cc, l, rfl⟩))))))))

theorem decode_ok_of_termMeetsFormat {t : Term} (h : TermMeetsFormat t) : ∃ i, decode t = .ok i := by
  rcases h with rfl | ⟨n, d, hn, rfl, hd⟩ | ⟨n, s, hn, rfl, hs⟩ | ⟨n, d, s, hn, rfl, hds⟩ | ⟨r, s, rfl, hs⟩ |
    ⟨n, d, a, hn, rfl, hda⟩ | ⟨d, cc, rfl, hd⟩ | ⟨r, i, rfl, hi⟩ | ⟨a, b, rfl, hab⟩ | ⟨cc, l, rfl⟩
  · exact ⟨_, decode_encode (i := .ret) rfl⟩
  · exact decode_ok_of_exists_instr (exists_instr_of_f1d_name hn d) (checkDest_iff.mpr hd)
  · exact decode_ok_of_exists_instr (exists_instr_of_f1s_name hn s) (checkSrc_iff.mpr hs)
  · exact decode_ok_of_exists_instr (exists_instr_of_f2ds_name hn d s) (checkDestSrc_iff.mpr hds)
  · exact ⟨_, decode_encode (i := .imul r s) (checkSrc_iff.mpr hs)⟩
  · exact decode_ok_of_exists_instr (exists_instr_of_f2da_name hn d a) (checkDestAmt_iff.mpr hda)
  · exact ⟨_, decode_encode (i := .setb d cc) (checkDest_iff.mpr hd)⟩
  · exact ⟨_, decode_encode (i := .lea r i) (lea_wellFormed_iff.mpr hi)⟩
  · exact ⟨_, decode_encode (i := .cmp a b) (checkSrcSrc_iff.mpr hab)⟩
  · exact ⟨_, decode_encode (i := .j cc l) rfl⟩

end Sys2Proof

namespace Sys2Proof.Claims

open Sys2Proof

/-- Settles O57: each format's check is its row's restrictions, and what the decoder accepts is what well-formed
instructions write. -/
theorem formatsAreExact : Obligations.FormatsAreExact := by
  refine ⟨wellFormed_iff_meetsFormat, fun t => ⟨?_, decode_ok_of_termMeetsFormat⟩⟩
  rintro ⟨i, hi⟩
  obtain ⟨rfl, hwf⟩ := decode_eq_ok_iff_encode.mp hi
  exact termMeetsFormat_encode ((wellFormed_iff_meetsFormat i).mp hwf)

/-- Two memory operands break R101 whatever else they are. -/
theorem decode_two_ind (i j : Ind) {n : String} (hn : n ∈ ["Add", "Sub", "And", "Or", "Xor", "Mov", "Cmp"]) :
    decode ⟨n, [.opnd (.ind i), .opnd (.ind j)]⟩ = .error (.illFormed .twoMemory) := by
  rcases List.mem_append.mp (show n ∈ ["Add", "Sub", "And", "Or", "Xor", "Mov"] ++ ["Cmp"] from hn) with hn | hn
  · exact decode_of_exists_instr (exists_instr_of_f2ds_name hn _ _) rfl
  · obtain rfl := List.mem_singleton.mp hn
    exact decode_encode_of_illFormed (i := .cmp (.ind i) (.ind j)) rfl

theorem decode_dest_not_location {d : Operand} (s : Operand) (hd : d.isLoc = false) {n : String}
    (hn : n ∈ ["Add", "Sub", "And", "Or", "Xor", "Mov", "Sar", "Shl", "Shr"]) :
    decode ⟨n, [.opnd d, .opnd s]⟩ = .error (.illFormed .destNotLocation) := by
  rcases List.mem_append.mp (show n ∈ ["Add", "Sub", "And", "Or", "Xor", "Mov"] ++ ["Sar", "Shl", "Shr"] from hn)
    with hn | hn
  · exact decode_of_exists_instr (exists_instr_of_f2ds_name hn d s) (checkDestSrc_of_not_isLoc s hd)
  · exact decode_of_exists_instr (exists_instr_of_f2da_name hn d s) (checkDestAmt_of_not_isLoc s hd)

/-- Only R100 is broken where the operands meet their format but for the index. -/
theorem decode_index_esp {i : Instr} (h : MeetsFormat (fun _ => True) i) (hi : ¬ MeetsFormat IndexNotEsp i) :
    decode (encode i) = .error (.illFormed .indexEsp) :=
  decode_encode_of_illFormed ((illFormed_of_meetsFormat h).resolve_left ((wellFormed_iff_meetsFormat i).not.mpr hi))

/-- Settles O4: clause by clause, what the check of the format answers, or the row whose positions do not fit. -/
theorem illFormedTermsRejected : Obligations.IllFormedTermsRejected := by
  refine ⟨fun i j n => decode_two_ind i j, fun t i k hk ht => ?_, fun i => decode_index_esp, fun d a n hn hd ha hr => ?_,
    fun d s n hn hr hi => decode_dest_not_location s (isLoc_eq_false hr hi) hn, fun d n hn hr hi => ?_,
    fun d c hr hi => decode_encode_of_illFormed (i := .setb d c) (checkDest_of_not_isLoc (isLoc_eq_false hr hi)),
    fun r o => decode_of_build_eq_none (o := .lea) rfl, fun o a => decode_of_build_eq_none (o := .lea) rfl,
    fun o a => decode_of_build_eq_none (o := .imul) rfl, fun c o => decode_of_build_eq_none (o := .j) rfl,
    fun n => decode_of_unknownName⟩
  · have hesp : i.indexOk = false := by simp [Ind.indexOk, hk]
    rcases ht with ht | ht
    · exact decode_of_not_indexOk ht hesp
    · exact decode_of_not_indexOk ht hesp
  · exact decode_of_exists_instr (exists_instr_of_f2da_name hn d a)
      (checkDestAmt_of_not_isAmount hd (isAmount_eq_false ha hr))
  · exact decode_of_exists_instr (exists_instr_of_f1d_name hn d) (checkDest_of_not_isLoc (isLoc_eq_false hr hi))

end Sys2Proof.Claims
end

section
/-! Admission and the accepted launch (R108, R271): what `exec` refuses, and why a launched machine starts in the
invariant. -/

namespace Sys2Proof.Machine

theorem exec_of_illFormed {i : Instr} {s : State} {w : IllFormed} (h : i.illFormed? = some w) :
    exec i s = .refused (.illFormed w) := by
  obtain ⟨r, hr⟩ := exec_eq_ifAdmissible i s
  rw [hr]
  exact ifAdmissible_eq_refused.mpr (.inl ⟨w, h, rfl⟩)

theorem exec_of_unresolved {i : Instr} {s : State} {l : Label} (hwf : i.WellFormed)
    (h : s.env.unresolved i.labels = some l) : exec i s = .refused (.unresolvedLabel l) := by
  obtain ⟨r, hr⟩ := exec_eq_ifAdmissible i s
  rw [hr]
  exact ifAdmissible_eq_refused.mpr (.inr (.inl ⟨hwf, l, h, rfl⟩))

theorem admissible_of_exec_eq_next {i : Instr} {s t : State} (h : exec i s = .next t) : Admissible i s := by
  obtain ⟨r, hr⟩ := exec_eq_ifAdmissible i s
  obtain ⟨hi, -⟩ := ifAdmissible_eq_next.mp (hr.symm.trans h)
  exact hi

/-- Every instruction of a decoded text is one that the decoder accepted. -/
theorem wellFormed_of_decodeText {ts : List (Word × Term)} {prog : List (Word × Instr)} (h : decodeText ts = .ok prog) :
    ∀ p ∈ prog, p.2.WellFormed := by
  replace h := decodeText_eq_ok.mp h
  induction h with
  | nil => simp
  | cons hpq _ ih =>
    obtain ⟨-, -, -, hwf⟩ := decode_eq_ok.mp hpq.2
    exact List.forall_mem_cons.mpr ⟨hwf, ih⟩

/-- The parameters of an accepted launch are sound: checks 1, 2 and 5. -/
theorem Launch.env_sound {l : Launch} {prog : List (Word × Instr)} (hd : decodeText l.text = .ok prog)
    (hc : l.failedCheck prog = none) : (l.env prog).Sound := by
  obtain ⟨hres, ⟨hn, hn4⟩, ha, hover, -, -, ⟨hexit, hexit'⟩, -⟩ := failedCheck_eq_none.mp hc
  exact ⟨fun p hp => ⟨wellFormed_of_decodeText hd p hp, hres p hp, ha p hp⟩, hn, hn4, hover, hexit, hexit'⟩

/-- The memory of an accepted launch is canonical: `Mem0` and the return address are stored word by word. -/
theorem Launch.firstState_mem_wf {l : Launch} {prog : List (Word × Instr)} (hc : l.failedCheck prog = none) :
    (l.firstState prog).mem.wf = true := by
  obtain ⟨-, -, -, -, -, ⟨hstack, -⟩, -, hmem0⟩ := failedCheck_eq_none.mp hc
  exact Memory.wf_writeWord _ (wf_loadWords hmem0 rfl) (aligned_bound (aligned_sub_four hstack))

end Sys2Proof.Machine

namespace Sys2Proof.Claims

open Sys2Proof Sys2Proof.Machine

/-- Settles O5: `exec` of any instruction passes through admission. -/
theorem onlyAdmissibleInstructionsExecute : Obligations.OnlyAdmissibleInstructionsExecute := by
  refine fun i s => ⟨fun w => exec_of_illFormed, fun hwf l => exec_of_unresolved hwf, fun t ht => ?_⟩
  obtain ⟨hwf, hres⟩ := admissible_of_exec_eq_next ht
  exact ⟨hwf, unresolved_eq_none.mp hres⟩

/-- Settles O11: the loader's checks are the soundness of the parameters, and it stores words at aligned addresses only. -/
theorem launchMeetsInvariant : Obligations.LaunchMeetsInvariant := by
  intro l s h
  obtain ⟨prog, hd, hc, rfl⟩ := start_eq_ok.mp h
  exact ⟨Launch.firstState_mem_wf hc, Launch.env_sound hd hc⟩

end Sys2Proof.Claims
end

section
/-! Operands (R96, R98): the effective address as a number, and the value of a resolved label. -/

namespace Sys2Proof.Machine

theorem labelAddr_of_label {e : Env} {l : Label} {a : Word} (h : e.label? l = some a) : e.labelAddr l = a := by
  rw [Env.labelAddr, h, Option.getD_some]

/-- Reading the parts unsigned: reduction modulo 2^32 may wait until the end. -/
theorem toNat_add_mul_add (b x k d : Word) :
    (b + x * k + d).toNat = (b.toNat + x.toNat * k.toNat + d.toNat) % 2 ^ 32 := by
  simp [BitVec.toNat_add, BitVec.toNat_mul]

/-- Reading the parts signed gives the same word (R98). -/
theorem add_mul_add_eq_trunc32 (b x k d : Word) :
    b + x * k + d = trunc32 (b.toInt + x.toInt * k.toInt + d.toInt) := by
  simp [trunc32, BitVec.ofInt_add, BitVec.ofInt_mul]

end Sys2Proof.Machine

namespace Sys2Proof.Claims

open Sys2Proof Sys2Proof.Machine

/-- Settles O20: the address is the sum of the parts as words, a missing part counting 0. -/
theorem effectiveAddressFormula : Obligations.EffectiveAddressFormula := by
  intro s base index disp b x d
  have hea : ea s ⟨base, index, disp⟩ = b + x.1 * x.2 + d := by
    -- in each shape the model's sum has these three parts
    cases base <;> cases index <;> rcases disp with _ | _ | _ <;> rfl
  rw [hea]
  exact ⟨toNat_add_mul_add b x.1 x.2 d, add_mul_add_eq_trunc32 b x.1 x.2 d⟩

/-- Settles O21: by the form of the operand. -/
theorem operandValues : Obligations.OperandValues := by
  refine fun s => ⟨val_imm s, fun l a h => ?_, val_reg s, fun i => rfl⟩
  rw [val_lbl, labelAddr_of_label h]

end Sys2Proof.Claims
end

section
/-! Read-modify-write instructions: `Updates` and the faults, once for the two shapes `modifyDest` is run in. -/

namespace Sys2Proof.Machine

open Sys2Proof.Claims

theorem asUsual_sz (f : Flags) (r : Word) : AsUsual (f.sz r) r := ⟨.rfl, beq_iff_eq⟩

theorem flags_of_modifyDest {s t : State} {d : Operand} {g : Word → Word} {fl : Word → Flags} {x : Word}
    (hx : val s d = .next x) (h : modifyDest s d g fl = .next t) : t.flags = fl x := by
  obtain ⟨y, u, hy, -, rfl⟩ := modifyDest_eq_next.mp h
  obtain rfl : x = y := by simpa [hx] using hy
  rfl

/-- An instruction that reads, modifies and writes DEST updates it by what it computes. -/
theorem updates_of_exec_eq_modifyDest {i : Instr} {s : State} {d : Operand} {g : Word → Word} {fl : Word → Flags}
    {value : Word → Word → Prop} {flags : Word → Word → Flags → Prop} (he : exec i s = modifyDest s d g fl)
    (hd : d.isLoc = true) (hok : operandFault s d = none) (hm : s.mem.wf = true) (hvalue : ∀ x, value x (g x))
    (hflags : ∀ x, flags x (g x) (fl x)) : Updates i s d value flags := by
  obtain ⟨p, hp⟩ := placeOf_of_isLoc hd s
  obtain ⟨t, ht, hcontent, hfl, hpc, hdraws, honly, -⟩ := modifyDest_of_ok g fl hp hok hm
  refine ⟨p, t, hp, he.trans ht, ?_, ?_, hpc, hdraws, honly⟩
  · rw [hcontent]
    exact hvalue _
  · rw [hcontent, hfl]
    exact hflags _

/-- Where SRC and DEST are not both memory, the access of either that faults is the one that decides. -/
theorem val_modifyDest_eq_fault {s : State} {d src : Operand} {f : Fault} (g : Word → Word → Word)
    (fl : Word → Word → Flags) (hds : checkDestSrc d src = none)
    (h : operandFault s src = some f ∨ operandFault s d = some f) :
    andThen (val s src) (fun v => modifyDest s d (g v) (fl v)) = .fault f := by
  obtain ⟨-, hmem, -, -⟩ := checkDestSrc_eq_none.mp hds
  refine andThen_eq_fault.mpr ?_
  rcases h with hsrc | hd
  · exact .inl (val_eq_fault.mpr hsrc)
  · have hsrc : operandFault s src = none := by
      cases d with
      | ind i => cases src with
        | ind j => exact absurd ⟨rfl, rfl⟩ hmem
        | imm n | lbl l | reg r => rfl
      | imm n | lbl l | reg r => cases hd
    obtain ⟨v, hv⟩ := val_of_ok hsrc
    exact .inr ⟨v, hv, modifyDest_eq_fault.mpr hd⟩

end Sys2Proof.Machine
end

section
/-! Neg, Add and Sub (R131 to R134): what each answers, and OF against the exact result. -/

namespace Sys2Proof.Machine

open Sys2Proof.Claims

theorem exec_neg_of_admissible {d : Operand} {s : State} (hi : Admissible (.neg d) s) :
    exec (.neg d) s = modifyDest s d negValue fun x => negFlags x (negValue x) :=
  ifAdmissible_of_admissible hi _

theorem exec_add_of_admissible {d src : Operand} {s : State} (hi : Admissible (.add d src) s) :
    exec (.add d src) s = andThen (val s src) fun v =>
      modifyDest s d (fun x => addValue x v) fun x => addFlags x v (addValue x v) :=
  ifAdmissible_of_admissible hi _

theorem exec_sub_of_admissible {d src : Operand} {s : State} (hi : Admissible (.sub d src) s) :
    exec (.sub d src) s = andThen (val s src) fun v =>
      modifyDest s d (fun x => subValue x v) fun x => subFlags x v (subValue x v) :=
  ifAdmissible_of_admissible hi _

theorem exec_add_of_val {d src : Operand} {s : State} {v : Word} (hi : Admissible (.add d src) s)
    (hv : val s src = .next v) :
    exec (.add d src) s = modifyDest s d (fun x => addValue x v) fun x => addFlags x v (addValue x v) := by
  rw [exec_add_of_admissible hi, hv, andThen_next]

theorem exec_sub_of_val {d src : Operand} {s : State} {v : Word} (hi : Admissible (.sub d src) s)
    (hv : val s src = .next v) :
    exec (.sub d src) s = modifyDest s d (fun x => subValue x v) fun x => subFlags x v (subValue x v) := by
  rw [exec_sub_of_admissible hi, hv, andThen_next]

theorem negFlags_OF {x r : Word} : (negFlags x r).OF = true ↔ x = 0x80000000#32 := beq_iff_eq

/-- OF of Add in the words of R133. -/
theorem addFlags_OF {x v r : Word} : (addFlags x v r).OF = true ↔ x.msb = v.msb ∧ r.msb ≠ v.msb := by
  simp [addFlags, addOverflow]

/-- The flags of Sub and Cmp in the words of R134. -/
theorem subFlagRule_subFlags (x v r : Word) : SubFlagRule x v r (subFlags x v r) := by
  refine ⟨?_, asUsual_sz _ r⟩
  simp [subFlags, subOverflow, minInt]

/-- The sum is the word whose signed value is the exact sum modulo 2^32. -/
theorem toInt_addValue (x v : Word) : (addValue x v).toInt = (x.toInt + v.toInt).bmod (2 ^ 32) := by
  rw [addValue, trunc32, BitVec.toInt_ofInt]

/-- OF of Add says that the exact sum is no 32-bit signed number. -/
theorem addFlags_OF_iff_exact {x v : Word} :
    (addFlags x v (addValue x v)).OF = true ↔ x.toInt + v.toInt < -2 ^ 31 ∨ x.toInt + v.toInt > 2 ^ 31 - 1 := by
  have hx := word_toInt_bounds x
  have hv := word_toInt_bounds v
  rw [addFlags_OF, ne_eq, Bool.eq_iff_iff (a := x.msb), Bool.eq_iff_iff (a := (addValue x v).msb)]
  simp only [BitVec.msb_eq_toInt, decide_eq_true_eq, toInt_addValue, Int.bmod]
  omega

/-- OF of Sub says that the exact difference is no 32-bit signed number, or that SRC is MIN_INT. -/
theorem subFlags_OF_iff_exact {x v : Word} :
    (subFlags x v (subValue x v)).OF = true ↔
      x.toInt - v.toInt < -2 ^ 31 ∨ x.toInt - v.toInt > 2 ^ 31 - 1 ∨ v = minInt := by
  have hx := word_toInt_bounds x
  have hv := word_toInt_bounds v
  rw [subFlags_OF, eq_minInt_iff]
  simp only [Int.bmod]
  omega

end Sys2Proof.Machine

namespace Sys2Proof.Claims

open Sys2Proof Sys2Proof.Machine

/-- Settles O26: Neg reads, modifies and writes DEST. -/
theorem negResult : Obligations.NegResult := by
  intro d s hi hm
  obtain ⟨hloc, -⟩ := checkDest_eq_none.mp hi.1
  refine ⟨fun hok => ?_, fun f hf => ?_⟩
  · exact updates_of_exec_eq_modifyDest (exec_neg_of_admissible hi) hloc hok hm (fun _ => rfl)
      fun _ => ⟨negFlags_OF, asUsual_sz _ _⟩
  · rw [exec_neg_of_admissible hi, modifyDest_eq_fault]
    exact hf

/-- Settles O27: Add reads SRC, then reads, modifies and writes DEST. -/
theorem addResult : Obligations.AddResult := by
  intro d src s hi hm
  obtain ⟨hloc, -⟩ := checkDestSrc_eq_none.mp hi.1
  refine ⟨fun v hv hok => ?_, fun f hf => ?_⟩
  · exact updates_of_exec_eq_modifyDest (exec_add_of_val hi hv) hloc hok hm (fun _ => rfl)
      fun _ => ⟨addFlags_OF, asUsual_sz _ _⟩
  · rw [exec_add_of_admissible hi]
    exact val_modifyDest_eq_fault _ _ hi.1 hf

/-- Settles O28: Sub reads SRC, then reads, modifies and writes DEST. -/
theorem subResult : Obligations.SubResult := by
  intro d src s hi hm
  obtain ⟨hloc, -⟩ := checkDestSrc_eq_none.mp hi.1
  refine ⟨fun v hv hok => ?_, fun f hf => ?_⟩
  · exact updates_of_exec_eq_modifyDest (exec_sub_of_val hi hv) hloc hok hm
      (fun x => by rw [subValue, Int.zero_sub]) fun x => subFlagRule_subFlags x v _
  · rw [exec_sub_of_admissible hi]
    exact val_modifyDest_eq_fault _ _ hi.1 hf

/-- Settles O30: both instructions leave the flags of the operands' values, and their OF is tied to the exact result. -/
theorem overflowIsExact : Obligations.OverflowIsExact := by
  intro d src s t x v hx hv
  refine ⟨fun h => ?_, fun h => ?_⟩
  · rw [exec_add_of_val (admissible_of_exec_eq_next h) hv] at h
    rw [flags_of_modifyDest hx h]
    exact addFlags_OF_iff_exact
  · rw [exec_sub_of_val (admissible_of_exec_eq_next h) hv] at h
    rw [flags_of_modifyDest hx h]
    exact subFlags_OF_iff_exact

end Sys2Proof.Claims
end

section
/-! Not, And, Or and Xor (R151 to R154). The three binary instructions are one: a word operation that acts on each bit, and
the flags of its result. -/

namespace Sys2Proof.Machine

open Sys2Proof.Claims

theorem exec_not_of_admissible {d : Operand} {s : State} (hi : Admissible (.not d) s) :
    exec (.not d) s = modifyDest s d (fun x => ~~~x) fun _ => s.flags :=
  ifAdmissible_of_admissible hi _

@[simp] theorem logicFlags_OF (r : Word) : (logicFlags r).OF = false := rfl

theorem asUsual_logicFlags (r : Word) : AsUsual (logicFlags r) r := asUsual_sz _ r

/-- And, Or and Xor combine SRC and DEST by the word operation whose bits are `op` of the operands' bits. -/
theorem exec_logic_of_admissible {i : Instr} {op : Bool → Bool → Bool} {d src : Operand} {s : State}
    (hop : (i = .and d src ∧ op = Bool.and) ∨ (i = .or d src ∧ op = Bool.or) ∨ (i = .xor d src ∧ op = Bool.xor))
    (hi : Admissible i s) :
    checkDestSrc d src = none ∧ ∃ g : Word → Word → Word,
      (∀ x v k, (g x v).getLsbD k = op (x.getLsbD k) (v.getLsbD k)) ∧
      exec i s = andThen (val s src) fun v => modifyDest s d (fun x => g x v) fun x => logicFlags (g x v) := by
  rcases hop with ⟨rfl, rfl⟩ | ⟨rfl, rfl⟩ | ⟨rfl, rfl⟩
  · exact ⟨hi.1, (· &&& ·), fun _ _ _ => BitVec.getLsbD_and, ifAdmissible_of_admissible hi _⟩
  · exact ⟨hi.1, (· ||| ·), fun _ _ _ => BitVec.getLsbD_or, ifAdmissible_of_admissible hi _⟩
  · exact ⟨hi.1, (· ^^^ ·), fun _ _ _ => BitVec.getLsbD_xor, ifAdmissible_of_admissible hi _⟩

end Sys2Proof.Machine

namespace Sys2Proof.Claims

open Sys2Proof Sys2Proof.Machine

/-- Settles O31: Not reads, modifies and writes DEST, and the flags it writes are those it found. -/
theorem notResult : Obligations.NotResult := by
  intro d s hi hm
  obtain ⟨hloc, -⟩ := checkDest_eq_none.mp hi.1
  refine ⟨fun hok => ?_, fun f hf => ?_⟩
  · exact updates_of_exec_eq_modifyDest (exec_not_of_admissible hi) hloc hok hm (fun _ => BitVec.toNat_not) fun _ => rfl
  · rw [exec_not_of_admissible hi, modifyDest_eq_fault]
    exact hf

/-- Settles O32: each of the three reads SRC, then reads, modifies and writes DEST bit by bit. -/
theorem logicResult : Obligations.LogicResult := by
  intro i op d src s hop hi hm
  obtain ⟨hds, g, hbit, he⟩ := exec_logic_of_admissible hop hi
  obtain ⟨hloc, -⟩ := checkDestSrc_eq_none.mp hds
  refine ⟨fun v hv hok => ?_, fun f hf => ?_⟩
  · rw [hv, andThen_next] at he
    exact updates_of_exec_eq_modifyDest he hloc hok hm (fun x k _ => hbit x v k) fun _ =>
      ⟨logicFlags_OF _, asUsual_logicFlags _⟩
  · rw [he]
    exact val_modifyDest_eq_fault _ _ hds hf

end Sys2Proof.Claims
end

section
/-! The values of the shifts (R171 to R173, R175): the word operations of the library, whose laws they share. -/

namespace Sys2Proof.Machine

theorem sarValue_eq_sshiftRight (x : Word) (n : Nat) : sarValue x n = x.sshiftRight n := by
  rw [sarValue, trunc32, Int.fdiv_eq_ediv_of_nonneg _ (by positivity), BitVec.sshiftRight, Int.shiftRight_eq_div_pow]
  norm_cast

theorem shlValue_eq_shiftLeft (x : Word) (n : Nat) : shlValue x n = x <<< n := by
  refine BitVec.eq_of_toNat_eq ?_
  rw [shlValue, BitVec.toNat_ofNat, BitVec.toNat_shiftLeft, Nat.shiftLeft_eq]

theorem shrValue_eq_ushiftRight (x : Word) (n : Nat) : shrValue x n = x >>> n := by
  rw [shrValue, ← Nat.shiftRight_eq_div_pow, ← BitVec.toNat_ushiftRight, BitVec.ofNat_toNat, BitVec.setWidth_eq]

theorem toNat_shlValue (x : Word) (n : Nat) : (shlValue x n).toNat = x.toNat * 2 ^ n % 2 ^ 32 := BitVec.toNat_ofNat ..

theorem toNat_shrValue (x : Word) (n : Nat) : (shrValue x n).toNat = x.toNat / 2 ^ n := by
  rw [shrValue_eq_ushiftRight, BitVec.toNat_ushiftRight, Nat.shiftRight_eq_div_pow]

/-- No signed quotient by a power of two is out of range. -/
theorem toInt_sarValue (x : Word) (n : Nat) : (sarValue x n).toInt = Int.fdiv x.toInt (2 ^ n) := by
  rw [sarValue_eq_sshiftRight, BitVec.toInt_sshiftRight, Int.shiftRight_eq_div_pow,
    Int.fdiv_eq_ediv_of_nonneg _ (by positivity)]
  norm_cast

/-- Modulo 2^32 the signed product is the unsigned one. -/
theorem shlValue_eq_trunc32 (x : Word) (n : Nat) : shlValue x n = trunc32 (x.toInt * 2 ^ n) := by
  have hpow : BitVec.ofInt 32 (2 ^ n) = BitVec.ofNat 32 (2 ^ n) := by rw [← BitVec.ofInt_natCast]; norm_cast
  rw [trunc32, BitVec.ofInt_mul, BitVec.ofInt_toInt, hpow, shlValue, BitVec.ofNat_mul, BitVec.ofNat_toNat,
    BitVec.setWidth_eq]

end Sys2Proof.Machine

namespace Sys2Proof.Claims

open Sys2Proof Sys2Proof.Machine

/-- Settles O38: the three values are those of the library's shifts, which compose by adding the amounts. -/
theorem shiftLaws : Obligations.ShiftLaws := by
  intro x m n _
  refine ⟨toNat_shlValue x m, shlValue_eq_trunc32 x m, toNat_shrValue x m, toInt_sarValue x m, ?_, ?_, ?_⟩
  · simp only [shlValue_eq_shiftLeft, BitVec.shiftLeft_add]
  · simp only [shrValue_eq_ushiftRight, BitVec.shiftRight_add]
  · simp only [sarValue_eq_sshiftRight, BitVec.sshiftRight_add]

end Sys2Proof.Claims
end

section
/-! The amount of a shift (R170): what it is for a given operand, and what the three shifts make of it. -/

namespace Sys2Proof.Machine

open Sys2Proof.Claims

theorem shiftAmount_of_le {s : State} {a : Operand} {w : Word} (hw : val s a = .next w) (h : w.toNat ≤ 31) :
    shiftAmount s a = .next w.toNat :=
  shiftAmount_eq_next.mpr ⟨w, hw, .inl ⟨h, rfl⟩⟩

theorem shiftAmount_of_mask5 {s : State} {a : Operand} {w : Word} (hw : val s a = .next w) (h : 31 < w.toNat)
    (hp : s.env.shiftAmt = .mask5) : shiftAmount s a = .next (w.toNat % 32) :=
  shiftAmount_eq_next.mpr ⟨w, hw, .inr ⟨h, hp, rfl⟩⟩

/-- An immediate below 32 is used as it is. -/
theorem shiftAmount_imm_mod (s : State) (n : Nat) : shiftAmount s (.imm (BitVec.ofNat 32 (n % 32))) = .next (n % 32) := by
  have hn : (BitVec.ofNat 32 (n % 32)).toNat = n % 32 := by
    rw [BitVec.toNat_ofNat]
    omega
  rw [shiftAmount_of_le (val_imm s _) (by omega), hn]

theorem admissible_isShift {i : Instr} {d a : Operand} {s : State} (h : IsShift i d a) :
    Admissible i s ↔ checkDestAmt d a = none ∧ s.env.unresolved (d.labels ++ a.labels) = none := by
  rcases h with rfl | rfl | rfl <;> rfl

/-- An immediate amount is admissible wherever any is. -/
theorem admissible_isShift_imm {i j : Instr} {d a : Operand} {s : State} (n : Word) (hi : IsShift i d a)
    (hj : IsShift j d (.imm n)) (h : Admissible i s) : Admissible j s := by
  obtain ⟨hwf, hlab⟩ := (admissible_isShift hi).mp h
  obtain ⟨hloc, -, hidx⟩ := checkDestAmt_eq_none.mp hwf
  refine (admissible_isShift hj).mpr ⟨checkDestAmt_eq_none.mpr ⟨hloc, rfl, hidx⟩, ?_⟩
  rw [unresolved_eq_none] at hlab ⊢
  intro l hl
  rw [show (Operand.imm n).labels = [] from rfl, List.append_nil] at hl
  exact hlab l (List.mem_append_left _ hl)

theorem exec_sar_of_admissible {d a : Operand} {s : State} (hi : Admissible (.sar d a) s) :
    exec (.sar d a) s = andThen (shiftAmount s a) fun n =>
      modifyDest s d (fun x => sarValue x n) fun x => sarFlags s.flags (sarValue x n) n :=
  ifAdmissible_of_admissible hi _

theorem exec_shl_of_admissible {d a : Operand} {s : State} (hi : Admissible (.shl d a) s) :
    exec (.shl d a) s = andThen (shiftAmount s a) fun n =>
      modifyDest s d (fun x => shlValue x n) fun x => shlFlags s.env.shlOf s.flags x (shlValue x n) n :=
  ifAdmissible_of_admissible hi _

theorem exec_shr_of_admissible {d a : Operand} {s : State} (hi : Admissible (.shr d a) s) :
    exec (.shr d a) s = andThen (shiftAmount s a) fun n =>
      modifyDest s d (fun x => shrValue x n) fun x => shrFlags s.flags x (shrValue x n) n :=
  ifAdmissible_of_admissible hi _

/-- The amount is the first thing a shift looks at (R244). -/
theorem exec_isShift_of_fault {i : Instr} {d a : Operand} {s : State} {f : Fault} (h : IsShift i d a)
    (hi : Admissible i s) (hf : shiftAmount s a = .fault f) : exec i s = .fault f := by
  rcases h with rfl | rfl | rfl
  · rw [exec_sar_of_admissible hi, hf, andThen_fault]
  · rw [exec_shl_of_admissible hi, hf, andThen_fault]
  · rw [exec_shr_of_admissible hi, hf, andThen_fault]

end Sys2Proof.Machine

namespace Sys2Proof.Claims

open Sys2Proof Sys2Proof.Machine

/-- Settles O33: a shift sees of its amount operand only `shiftAmount`, which under `mask5` is that of the reduced
immediate. -/
theorem shiftAmountPolicies : Obligations.ShiftAmountPolicies := by
  intro d a s w hw
  refine ⟨shiftAmount_of_le hw, fun hlt hp i hshift hi => ?_, fun hlt hp => ?_⟩
  · obtain ⟨-, hamt, -⟩ := checkDestAmt_eq_none.mp ((admissible_isShift hshift).mp hi).1
    exact exec_isShift_of_fault hshift hi ((shiftAmount_eq_fault hamt).mpr ⟨w, hw, hlt, hp, rfl⟩)
  · have hsame : shiftAmount s a = shiftAmount s (.imm (BitVec.ofNat 32 (w.toNat % 32))) :=
      (shiftAmount_of_mask5 hw hlt hp).trans (shiftAmount_imm_mod s _).symm
    refine ⟨fun hi => ?_, fun hi => ?_, fun hi => ?_⟩
    · rw [exec_sar_of_admissible hi, hsame, exec_sar_of_admissible (admissible_isShift_imm _ (.inl rfl) (.inl rfl) hi)]
    · rw [exec_shl_of_admissible hi, hsame,
        exec_shl_of_admissible (admissible_isShift_imm _ (.inr (.inl rfl)) (.inr (.inl rfl)) hi)]
    · rw [exec_shr_of_admissible hi, hsame,
        exec_shr_of_admissible (admissible_isShift_imm _ (.inr (.inr rfl)) (.inr (.inr rfl)) hi)]

end Sys2Proof.Claims
end

section
/-! Sar, Shl and Shr (R171 to R173): one rule for their flags, which differ in OF after amount 1 alone, and one for what a
read-modify-write with an amount up to 31 answers. -/

namespace Sys2Proof.Machine

open Sys2Proof.Claims

/-- The flags of a shift that leaves `ov` in OF where its amount is 1. -/
def shiftFlags (f : Flags) (r : Word) (n : Nat) (ov : Bool) : Flags :=
  { shiftSz f r n with OF := if n = 1 then ov else f.OF }

@[simp] theorem shiftSz_OF (f : Flags) (r : Word) (n : Nat) : (shiftSz f r n).OF = f.OF := by
  by_cases h : n = 0 <;> simp [shiftSz, h]

theorem shiftFlags_of_ne_one {f : Flags} {r : Word} {n : Nat} (ov : Bool) (h : n ≠ 1) :
    shiftFlags f r n ov = shiftSz f r n := by
  rw [shiftFlags, if_neg h, ← shiftSz_OF f r n]

/-- The flag rule the three shifts share: amount 0 keeps all flags, amount 1 alone writes OF. -/
theorem shiftFlags_rule (f : Flags) (r : Word) (n : Nat) (ov : Bool) :
    (n = 0 → shiftFlags f r n ov = f) ∧ (n ≠ 0 → AsUsual (shiftFlags f r n ov) r) ∧
      (n = 1 → (shiftFlags f r n ov).OF = ov) ∧ (n ≠ 1 → (shiftFlags f r n ov).OF = f.OF) := by
  refine ⟨fun h => ?_, fun h => ?_, fun h => if_pos h, fun h => if_neg h⟩
  · subst h
    rfl
  · rw [shiftFlags, shiftSz, if_neg h]
    exact asUsual_sz f r

theorem sarFlags_eq_shiftFlags (f : Flags) (r : Word) (n : Nat) : sarFlags f r n = shiftFlags f r n false := by
  by_cases h : n = 1
  · subst h; rfl
  · rw [shiftFlags_of_ne_one _ h, sarFlags, if_neg h]

theorem shrFlags_eq_shiftFlags (f : Flags) (x r : Word) (n : Nat) :
    shrFlags f x r n = shiftFlags f r n (x.getLsbD 31) := by
  by_cases h : n = 1
  · subst h; rfl
  · rw [shiftFlags_of_ne_one _ h, shrFlags, if_neg h]

/-- OF after Shl by 1: whether bits 31 and 30 of DEST differ; under `literal`, agreeing bits keep it. -/
def shlOverflow (p : ShlOfPolicy) (f : Flags) (x : Word) : Bool :=
  (x.getLsbD 31 != x.getLsbD 30) || (p == .literal && f.OF)

theorem shlOverflow_of_ne {p : ShlOfPolicy} {f : Flags} {x : Word} (h : x.getLsbD 31 ≠ x.getLsbD 30) :
    shlOverflow p f x = true := by
  rw [shlOverflow, bne_iff_ne.mpr h, Bool.true_or]

theorem shlOverflow_of_eq {p : ShlOfPolicy} {f : Flags} {x : Word} (h : x.getLsbD 31 = x.getLsbD 30) :
    shlOverflow p f x = (p == .literal && f.OF) := by
  rw [shlOverflow, h, bne_self_eq_false, Bool.false_or]

theorem shlFlags_eq_shiftFlags (p : ShlOfPolicy) (f : Flags) (x r : Word) (n : Nat) :
    shlFlags p f x r n = shiftFlags f r n (shlOverflow p f x) := by
  by_cases h : n = 1
  · subst h
    unfold shlFlags shlOverflow
    generalize (x.getLsbD 31 != x.getLsbD 30) = differ
    cases p <;> cases differ <;> rfl
  · rw [shiftFlags_of_ne_one _ h]
    exact if_neg h

/-- What a shift by an amount up to 31 answers, whatever the value and the flags it computes. -/
theorem updates_of_exec_eq_shift {i : Instr} {s : State} {d a : Operand} {w : Word} {g : Word → Nat → Word}
    {fl : Word → Nat → Flags} {value : Word → Word → Prop} {flags : Word → Word → Flags → Prop}
    (he : exec i s = andThen (shiftAmount s a) fun n => modifyDest s d (fun x => g x n) fun x => fl x n)
    (hda : checkDestAmt d a = none) (hm : s.mem.wf = true) (hw : val s a = .next w) (hle : w.toNat ≤ 31)
    (hvalue : ∀ x, value x (g x w.toNat)) (hflags : ∀ x, flags x (g x w.toNat) (fl x w.toNat)) :
    (operandFault s d = none → Updates i s d value flags) ∧ ∀ f, operandFault s d = some f → exec i s = .fault f := by
  obtain ⟨hloc, -⟩ := checkDestAmt_eq_none.mp hda
  rw [shiftAmount_of_le hw hle, andThen_next] at he
  refine ⟨fun hok => updates_of_exec_eq_modifyDest he hloc hok hm hvalue hflags, fun f hf => ?_⟩
  rw [he, modifyDest_eq_fault]
  exact hf

end Sys2Proof.Machine

namespace Sys2Proof.Claims

open Sys2Proof Sys2Proof.Machine

/-- Settles O34: Sar's value is the floor of the signed quotient, and amount 1 leaves OF clear. -/
theorem sarResult : Obligations.SarResult := by
  intro d a s w hi hm hw hle
  refine updates_of_exec_eq_shift (exec_sar_of_admissible hi) hi.1 hm hw hle (fun x => toInt_sarValue x _) fun x => ?_
  rw [sarFlags_eq_shiftFlags]
  exact shiftFlags_rule ..

/-- Settles O35: Shl's value is the product modulo 2^32, and amount 1 leaves OF as `SHL_OF_POLICY` says. -/
theorem shlResult : Obligations.ShlResult := by
  intro d a s w hi hm hw hle
  refine updates_of_exec_eq_shift (exec_shl_of_admissible hi) hi.1 hm hw hle (fun x => toNat_shlValue x _) fun x => ?_
  rw [shlFlags_eq_shiftFlags]
  obtain ⟨hzero, husual, hone, hother⟩ :=
    shiftFlags_rule s.flags (shlValue x w.toNat) w.toNat (shlOverflow s.env.shlOf s.flags x)
  refine ⟨hzero, husual, fun h hne => ?_, fun h heq => ?_, hother⟩
  · rw [hone h, shlOverflow_of_ne hne]
  · rw [hone h, shlOverflow_of_eq heq]
    cases s.env.shlOf <;> rfl

/-- Settles O36: Shr's value is the floor of the unsigned quotient, and amount 1 leaves bit 31 of DEST in OF. -/
theorem shrResult : Obligations.ShrResult := by
  intro d a s w hi hm hw hle
  refine updates_of_exec_eq_shift (exec_shr_of_admissible hi) hi.1 hm hw hle (fun x => toNat_shrValue x _) fun x => ?_
  rw [shrFlags_eq_shiftFlags]
  exact shiftFlags_rule ..

end Sys2Proof.Claims
end

section
/-! Setb (R174): the low byte of a word, bit by bit. -/

namespace Sys2Proof.Machine

theorem exec_setb_of_admissible {d : Operand} {cc : CC} {s : State} (hi : Admissible (.setb d cc) s) :
    exec (.setb d cc) s = modifyDest s d (fun x => setbValue x (s.flags.cond cc)) fun _ => s.flags :=
  ifAdmissible_of_admissible hi _

/-- The mask of bits 31:8. -/
theorem getLsbD_upperMask {k : Nat} (hk : k < 32) : (0xffffff00#32).getLsbD k = decide (8 ≤ k) := by
  revert k
  decide

/-- Replacing the low byte is masking it out and putting the new one there. -/
theorem withLowByte_eq_or (x : Word) (b : Byte) : withLowByte x b = (x &&& 0xffffff00#32) ||| b.setWidth 32 := by
  refine BitVec.eq_of_getLsbD_eq fun k hk => ?_
  simp only [withLowByte, BitVec.getLsbD_append, BitVec.getLsbD_extractLsb', BitVec.getLsbD_or, BitVec.getLsbD_and,
    BitVec.getLsbD_setWidth, getLsbD_upperMask hk]
  by_cases h : k < 8
  · simp [h, hk]
  · have hback : 8 + (k - 8) = k := by omega
    simp [h, hback, show k - 8 < 24 by omega, show 8 ≤ k by omega]

theorem setbValue_eq_or (x : Word) (c : Bool) :
    setbValue x c = (x &&& 0xffffff00#32) ||| (if c = true then 0x01#32 else 0x00#32) := by
  rw [setbValue, withLowByte_eq_or]
  cases c <;> rfl

end Sys2Proof.Machine

namespace Sys2Proof.Claims

open Sys2Proof Sys2Proof.Machine

/-- Settles O37: Setb reads the whole word, replaces its low byte and writes it back; the flags it writes are those it
found. -/
theorem setbResult : Obligations.SetbResult := by
  intro d cc s hi hm
  obtain ⟨hloc, -⟩ := checkDest_eq_none.mp hi.1
  refine ⟨fun hok => ?_, fun f hf => ?_⟩
  · exact updates_of_exec_eq_modifyDest (exec_setb_of_admissible hi) hloc hok hm (fun x => setbValue_eq_or x _) fun _ => rfl
  · rw [exec_setb_of_admissible hi, modifyDest_eq_fault]
    exact hf

end Sys2Proof.Claims
end

section
/-! Lea and Mov (R190, R191): one write of a place, and fall through. -/

namespace Sys2Proof.Machine

theorem exec_lea_of_admissible {d : Reg} {src : Ind} {s : State} (hi : Admissible (.lea d src) s) :
    exec (.lea d src) s = .next (s.setReg d (ea s src)).advance :=
  ifAdmissible_of_admissible hi _

theorem exec_mov_of_admissible {d src : Operand} {s : State} (hi : Admissible (.mov d src) s) :
    exec (.mov d src) s = andThen (val s src) fun v => andThen (store s d v) fun t => .next t.advance :=
  ifAdmissible_of_admissible hi _

/-- A place holds what it held when EIP falls through. -/
theorem content_advance (s : State) (p : Place) : s.advance.content p = s.content p := by
  cases p <;> rfl

/-- The access of SRC or DEST that faults decides: DEST's check is the same whether DEST is only written or read first. -/
theorem val_store_eq_fault {s : State} {d src : Operand} {f : Fault} (hds : checkDestSrc d src = none)
    (h : operandFault s src = some f ∨ operandFault s d = some f) :
    (andThen (val s src) fun v => andThen (store s d v) fun t => .next t.advance) = .fault f := by
  have hmodify := val_modifyDest_eq_fault (fun _ x => x) (fun _ _ => s.flags) hds h
  simp only [andThen_eq_fault, modifyDest_eq_fault] at hmodify
  simp only [andThen_eq_fault, store_eq_fault]
  obtain hsrc | ⟨v, hv, hd⟩ := hmodify
  · exact .inl hsrc
  · exact .inr ⟨v, hv, .inl hd⟩

end Sys2Proof.Machine

namespace Sys2Proof.Claims

open Sys2Proof Sys2Proof.Machine

/-- Settles O39: Lea is one register write. -/
theorem leaResult : Obligations.LeaResult := fun d _ s hi =>
  ⟨_, exec_lea_of_admissible hi, State.getReg_setReg_same s d _, rfl, rfl, rfl, onlyWrites_setReg s d _⟩

/-- Settles O40: Mov reads SRC and stores it in DEST's place; the operands are not both memory, so at most one access faults. -/
theorem movResult : Obligations.MovResult := by
  intro d src s hi hm
  obtain ⟨hloc, -⟩ := checkDestSrc_eq_none.mp hi.1
  refine ⟨fun v hv hok => ?_, fun f hf => ?_⟩
  · obtain ⟨p, hp⟩ := placeOf_of_isLoc hloc s
    obtain ⟨t, hstore, hcontent, honly, -, hpc, hflags, hdraws⟩ := store_of_ok v hp hok hm
    have henv : t.env = s.env := honly.2.2
    refine ⟨p, t.advance, hp, ?_, (content_advance t p).trans hcontent, hflags, ?_, hdraws, honly⟩
    · rw [exec_mov_of_admissible hi, hv, andThen_next, hstore, andThen_next]
    · simp [State.npc, hpc, henv]
  · rw [exec_mov_of_admissible hi]
    exact val_store_eq_fault hi.1 hf

end Sys2Proof.Claims
end

section
/-! Push and Call (R192, R194, R212): both evaluate an operand in some state, push a word and set EIP. The policies differ
only in the state the operand is evaluated in. -/

namespace Sys2Proof.Machine

open Sys2Proof.Claims

/-- Two sequences of writes, one after the other. -/
theorem OnlyWrites.trans {s t u : State} {ps qs : List Place} (h : OnlyWrites s t ps) (h' : OnlyWrites t u qs) :
    OnlyWrites s u (ps ++ qs) := by
  obtain ⟨hreg, hmem, henv⟩ := h
  obtain ⟨hreg', hmem', henv'⟩ := h'
  refine ⟨fun r hr => ?_, fun x hx => ?_, henv'.trans henv⟩
  · rw [List.mem_append, not_or] at hr
    exact (hreg' r hr.2).trans (hreg r hr.1)
  · exact (hmem' x fun a ha => hx a (List.mem_append_right ps ha)).trans
      (hmem x fun a ha => hx a (List.mem_append_left qs ha))

/-- A register written, then a word stored. -/
theorem onlyWrites_setReg_writeWord (s : State) (r : Reg) (w a v : Word) :
    OnlyWrites s ((s.setReg r w).withMem (s.mem.writeWord a.toNat v)) [.reg r, .word a] :=
  (onlyWrites_setReg s r w).trans (onlyWrites_writeWord (s.setReg r w) a v)

/-- The state a push of `v` answers where the slot below ESP is admitted (R76). -/
def State.pushed (s : State) (v : Word) : State := (s.withMem (s.mem.writeWord s.pushAddr.toNat v)).setReg .esp s.pushAddr

theorem pushWord_of_ok {s : State} (v : Word) (h : s.env.accessFault s.pushAddr = none) :
    s.pushWord v = .next (s.pushed v) :=
  pushWord_eq_next.mpr ⟨h, rfl⟩

theorem readWord_pushed {s : State} (v : Word) (hm : s.mem.wf = true) (h : s.env.accessFault s.pushAddr = none) :
    (s.pushed v).mem.readWord s.pushAddr.toNat = v :=
  Memory.readWord_writeWord_same v hm (aligned_bound (accessFault_eq_none.mp h).1)

theorem onlyWrites_pushed (s : State) (v : Word) : OnlyWrites s (s.pushed v) [.reg .esp, .word s.pushAddr] :=
  onlyWrites_setReg_writeWord s .esp s.pushAddr s.pushAddr v

/-- An operand's access is checked alike in the state after a push and with ESP alone moved: no address reads memory. -/
theorem operandFault_pushed (s : State) (v : Word) (o : Operand) :
    operandFault (s.pushed v) o = operandFault (s.setReg .esp s.pushAddr) o := by
  cases o <;> rfl

/-- An instruction that evaluates `o` in `e`, pushes a word and jumps: where both accesses succeed it answers the state
pushed; a fault of the operand's read comes first, then one of the slot (R244). -/
theorem exec_eq_of_pushes {i : Instr} {o : Operand} {s e : State} {word target : Word → Word}
    (he : exec i s = andThen (val e o) fun w => andThen (s.pushWord (word w)) fun u => .next (u.jump (target w))) :
    (∀ w, val e o = .next w → s.env.accessFault s.pushAddr = none →
      exec i s = .next ((s.pushed (word w)).jump (target w))) ∧
    (∀ f, operandFault e o = some f → exec i s = .fault f) ∧
    (∀ f, operandFault e o = none → s.env.accessFault s.pushAddr = some f → exec i s = .fault f) := by
  refine ⟨fun w hw hok => ?_, fun f hf => ?_, fun f hnone hf => ?_⟩
  · rw [he, hw, andThen_next, pushWord_of_ok _ hok, andThen_next]
  · rw [he, val_eq_fault.mpr hf, andThen_fault]
  · obtain ⟨w, hw⟩ := val_of_ok hnone
    rw [he, hw, andThen_next, pushWord_eq_fault.mpr hf, andThen_fault]

/-- After a push, falling through is a jump to the `npc` of before it. -/
theorem pushWord_advance (s : State) (v : Word) :
    (andThen (s.pushWord v) fun t => .next t.advance) = andThen (s.pushWord v) fun t => .next (t.jump s.npc) := by
  cases h : s.env.accessFault s.pushAddr with
  | none =>
    rw [pushWord_of_ok v h]
    rfl
  | some f => rw [pushWord_eq_fault.mpr h, andThen_fault, andThen_fault]

theorem espPolicy_of_not_dependsOnEsp {o : Operand} (s : State) (h : dependsOnEsp o = false) : espPolicy s o = .before := by
  simp [espPolicy, h]

theorem espPolicy_of_dependsOnEsp {o : Operand} (s : State) (h : dependsOnEsp o = true) :
    espPolicy s o = s.env.espOperand := by
  simp [espPolicy, h]

/-- Under `fault`, an operand that depends on ESP stops Push, Pop and Call before anything else (R194, R244). -/
theorem exec_stackOperand_of_policy_fault {i : Instr} {o : Operand} {s : State} (h : StackOperand i o)
    (hi : Admissible i s) (hp : espPolicy s o = .fault) : exec i s = .fault (.espOperand i) := by
  rcases h with rfl | rfl | rfl
  · rw [exec, execPush, ifAdmissible_of_admissible hi, hp, raise]
  · rw [exec, execPop, ifAdmissible_of_admissible hi, hp, raise]
  · rw [exec, execCall, ifAdmissible_of_admissible hi, hp, raise]

/-- Push with its operand evaluated before ESP moves (R192). -/
theorem exec_push_of_before {src : Operand} {s : State} (hi : Admissible (.push src) s) (hp : espPolicy s src = .before) :
    exec (.push src) s = andThen (val s src) fun v => andThen (s.pushWord v) fun t => .next (t.jump s.npc) := by
  simp only [exec, execPush, ifAdmissible_of_admissible hi, hp, pushWord_advance]

/-- Push with its operand evaluated with ESP moved (R194). -/
theorem exec_push_of_sequential {src : Operand} {s : State} (hi : Admissible (.push src) s)
    (hp : espPolicy s src = .sequential) :
    exec (.push src) s =
      andThen (val (s.setReg .esp s.pushAddr) src) fun v => andThen (s.pushWord v) fun t => .next (t.jump s.npc) := by
  simp only [exec, execPush, ifAdmissible_of_admissible hi, hp, pushWord_advance]

/-- Push on an operand that depends on ESP evaluates it in `pushEval` (R194). -/
theorem exec_push_of_dependsOnEsp {src : Operand} {s : State} (hi : Admissible (.push src) s)
    (hdep : dependsOnEsp src = true) (hp : s.env.espOperand ≠ .fault) :
    exec (.push src) s = andThen (val (pushEval s) src) fun v => andThen (s.pushWord v) fun t => .next (t.jump s.npc) := by
  have hpolicy := espPolicy_of_dependsOnEsp s hdep
  cases h : s.env.espOperand with
  | fault => exact absurd h hp
  | sequential =>
    rw [exec_push_of_sequential hi (hpolicy.trans h), pushEval, h]
    rfl
  | before => rw [exec_push_of_before hi (hpolicy.trans h), pushEval, h]

/-- Call with its operand evaluated before the push (R212). -/
theorem exec_call_of_before {src : Operand} {s : State} (hi : Admissible (.call src) s) (hp : espPolicy s src = .before) :
    exec (.call src) s = andThen (val s src) fun w => andThen (s.pushWord s.npc) fun u => .next (u.jump w) := by
  simp only [exec, execCall, ifAdmissible_of_admissible hi, hp]

/-- Call with its operand evaluated after the push (R194). Its read is checked before the push is (log entry 15), so the two
accesses fault in the order of the other policy. -/
theorem exec_call_of_sequential {src : Operand} {s : State} (hi : Admissible (.call src) s)
    (hp : espPolicy s src = .sequential) :
    exec (.call src) s =
      andThen (val (s.pushed s.npc) src) fun w => andThen (s.pushWord s.npc) fun u => .next (u.jump w) := by
  simp only [exec, execCall, ifAdmissible_of_admissible hi, hp]
  rcases val_cases (s.pushed s.npc) src with ⟨hok, w, hw⟩ | ⟨f, hf, hval⟩
  · obtain ⟨x, hx⟩ := val_of_ok ((operandFault_pushed s s.npc src).symm.trans hok)
    rw [hx, hw, andThen_next, andThen_next]
    cases h : s.env.accessFault s.pushAddr with
    | none => rw [pushWord_of_ok _ h, andThen_next, andThen_next, hw, andThen_next]
    | some f => rw [pushWord_eq_fault.mpr h, andThen_fault, andThen_fault]
  · rw [hval, val_eq_fault.mpr ((operandFault_pushed s s.npc src).symm.trans hf), andThen_fault, andThen_fault]

/-- Call on an operand that depends on ESP evaluates it in `callEval` (R194). -/
theorem exec_call_of_dependsOnEsp {src : Operand} {s : State} (hi : Admissible (.call src) s)
    (hdep : dependsOnEsp src = true) (hp : s.env.espOperand ≠ .fault) :
    exec (.call src) s = andThen (val (callEval s) src) fun w => andThen (s.pushWord s.npc) fun u => .next (u.jump w) := by
  have hpolicy := espPolicy_of_dependsOnEsp s hdep
  cases h : s.env.espOperand with
  | fault => exact absurd h hp
  | sequential =>
    rw [exec_call_of_sequential hi (hpolicy.trans h), callEval, h]
    rfl
  | before => rw [exec_call_of_before hi (hpolicy.trans h), callEval, h]

end Sys2Proof.Machine

namespace Sys2Proof.Claims

open Sys2Proof Sys2Proof.Machine

/-- Settles O41: Push evaluates its operand in the state before it, then pushes the value. -/
theorem pushResult : Obligations.PushResult := by
  intro src s hi hdep hm
  obtain ⟨hnext, hfaults⟩ := exec_eq_of_pushes (exec_push_of_before hi (espPolicy_of_not_dependsOnEsp s hdep))
  exact ⟨fun v hv hok => ⟨_, hnext v hv hok, rfl, readWord_pushed v hm hok, rfl, rfl, rfl, onlyWrites_pushed s v⟩, hfaults⟩

theorem pushOnEsp : PushOnEsp := by
  intro src s hi hdep hm
  refine ⟨fun hp => ?_, fun hp => ?_⟩
  · exact exec_stackOperand_of_policy_fault (.inl rfl) hi ((espPolicy_of_dependsOnEsp s hdep).trans hp)
  · obtain ⟨hnext, hfaults⟩ := exec_eq_of_pushes (exec_push_of_dependsOnEsp hi hdep hp)
    exact ⟨fun v hv hok => ⟨_, hnext v hv hok, rfl, readWord_pushed v hm hok, rfl, rfl, rfl, onlyWrites_pushed s v⟩, hfaults⟩

theorem callOnEsp : CallOnEsp := by
  intro src s hi hdep hm
  refine ⟨fun hp => ?_, fun hp => ?_⟩
  · exact exec_stackOperand_of_policy_fault (.inr (.inr rfl)) hi ((espPolicy_of_dependsOnEsp s hdep).trans hp)
  · obtain ⟨hnext, hfaults⟩ := exec_eq_of_pushes (exec_call_of_dependsOnEsp hi hdep hp)
    exact ⟨fun w hw hok =>
      ⟨_, hnext w hw hok, rfl, rfl, readWord_pushed s.npc hm hok, rfl, rfl, onlyWrites_pushed s s.npc⟩, hfaults⟩

end Sys2Proof.Claims
end

section
/-! Pop (R193, R194): a read at ESP, and one write beside ESP. A memory DEST is the word at `popTarget` under every policy;
where DEST does not depend on ESP that is its own address. -/

namespace Sys2Proof.Machine

open Sys2Proof.Claims

theorem exec_pop_of_before {d : Operand} {s : State} (hi : Admissible (.pop d) s) (hp : espPolicy s d = .before) :
    exec (.pop d) s =
      andThen (s.memRead (s.getReg .esp)) fun v => andThen (store s.popped d v) fun t => .next t.advance := by
  simp only [exec, execPop, ifAdmissible_of_admissible hi, hp]

theorem exec_pop_of_sequential {d : Operand} {s : State} (hi : Admissible (.pop d) s) (hp : espPolicy s d = .sequential) :
    exec (.pop d) s =
      andThen (s.memRead (s.getReg .esp)) fun v => andThen (store s d v) fun t => .next t.popped.advance := by
  simp only [exec, execPop, ifAdmissible_of_admissible hi, hp]

/-- The read at ESP is Pop's first access (R244). -/
theorem exec_pop_of_read_fault {d : Operand} {s : State} {f : Fault} (hi : Admissible (.pop d) s)
    (hp : espPolicy s d ≠ .fault) (hf : s.memRead (s.getReg .esp) = .fault f) : exec (.pop d) s = .fault f := by
  cases h : espPolicy s d with
  | fault => exact absurd h hp
  | sequential => rw [exec_pop_of_sequential hi h, hf, andThen_fault]
  | before => rw [exec_pop_of_before hi h, hf, andThen_fault]

theorem ea_popped_of_not_dependsOnEsp {i : Ind} {s : State} (hi : i.indexOk = true) (h : dependsOnEsp (.ind i) = false) :
    ea s.popped i = ea s i :=
  ea_setReg_esp _ (by simpa [dependsOnEsp] using h) hi

theorem popTarget_of_not_dependsOnEsp {i : Ind} {s : State} (hi : i.indexOk = true) (h : dependsOnEsp (.ind i) = false) :
    popTarget s i = ea s i := by
  cases hp : s.env.espOperand with
  | fault | sequential => simp only [popTarget, hp]
  | before =>
    rw [popTarget, hp]
    exact ea_popped_of_not_dependsOnEsp hi h

/-- A word store and moving ESP up commute. -/
theorem memWrite_popped (s : State) (a v : Word) :
    (andThen (s.popped.memWrite a v) fun t => .next t.advance) =
      andThen (s.memWrite a v) fun t => .next t.popped.advance := by
  cases h : s.env.accessFault a with
  | none =>
    rw [memWrite_of_ok v h, memWrite_of_ok (s := s.popped) v h]
    rfl
  | some f => rw [memWrite_of_fault v h, memWrite_of_fault (s := s.popped) v h, andThen_fault, andThen_fault]

/-- Pop into memory, whichever policy applies: the word read at ESP is stored at `popTarget`. -/
theorem exec_pop_ind {i : Ind} {s : State} (hi : Admissible (.pop (.ind i)) s) (hp : espPolicy s (.ind i) ≠ .fault) :
    exec (.pop (.ind i)) s = andThen (s.memRead (s.getReg .esp)) fun v =>
      andThen (s.memWrite (popTarget s i) v) fun t => .next t.popped.advance := by
  have hindex : i.indexOk = true := (checkDest_eq_none.mp hi.1).2
  cases hdep : dependsOnEsp (.ind i) with
  | false =>
    rw [exec_pop_of_before hi (espPolicy_of_not_dependsOnEsp s hdep), popTarget_of_not_dependsOnEsp hindex hdep]
    simp only [store, ea_popped_of_not_dependsOnEsp hindex hdep, memWrite_popped]
  | true =>
    have hpolicy := espPolicy_of_dependsOnEsp s hdep
    cases h : s.env.espOperand with
    | fault => exact absurd (hpolicy.trans h) hp
    | sequential => simp only [exec_pop_of_sequential hi (hpolicy.trans h), store, popTarget, h]
    | before =>
      simp only [exec_pop_of_before hi (hpolicy.trans h), store, memWrite_popped, popTarget, h]
      rfl

theorem exec_pop_ind_of_ok {i : Ind} {s : State} {v : Word} (hi : Admissible (.pop (.ind i)) s)
    (hp : espPolicy s (.ind i) ≠ .fault) (hm : s.mem.wf = true) (hv : s.memRead (s.getReg .esp) = .next v)
    (hok : s.env.accessFault (popTarget s i) = none) :
    ∃ t, exec (.pop (.ind i)) s = .next t ∧ t.mem.readWord (popTarget s i).toNat = v ∧
      t.getReg .esp = s.getReg .esp + 4 ∧ t.flags = s.flags ∧ t.pc = s.npc ∧ t.draws = s.draws ∧
      OnlyWrites s t [.reg .esp, .word (popTarget s i)] := by
  refine ⟨(s.withMem (s.mem.writeWord (popTarget s i).toNat v)).popped.advance, ?_, ?_, rfl, rfl, rfl, rfl, ?_⟩
  · rw [exec_pop_ind hi hp, hv, andThen_next, memWrite_of_ok v hok, andThen_next]
  · exact Memory.readWord_writeWord_same v hm (aligned_bound (accessFault_eq_none.mp hok).1)
  · exact onlyWrites_setReg_writeWord s .esp (s.getReg .esp + 4) (popTarget s i) v

theorem exec_pop_ind_of_fault {i : Ind} {s : State} {v : Word} {f : Fault} (hi : Admissible (.pop (.ind i)) s)
    (hp : espPolicy s (.ind i) ≠ .fault) (hv : s.memRead (s.getReg .esp) = .next v)
    (hf : s.env.accessFault (popTarget s i) = some f) : exec (.pop (.ind i)) s = .fault f := by
  rw [exec_pop_ind hi hp, hv, andThen_next, memWrite_of_fault v hf, andThen_fault]

/-- Pop into ESP is one write of ESP: the popped word, moved up by 4 where ESP moves last (R194). -/
theorem exec_pop_esp {s : State} {v : Word} (hp : s.env.espOperand ≠ .fault) (hv : s.memRead (s.getReg .esp) = .next v) :
    exec (.pop (.reg .esp)) s =
      .next (s.setReg .esp (if s.env.espOperand = .sequential then v + 4 else v)).advance := by
  have hpolicy := espPolicy_of_dependsOnEsp (o := .reg .esp) s rfl
  have hset (w w' : Word) : (s.setReg .esp w).setReg .esp w' = s.setReg .esp w' := by
    simp only [State.setReg, RegFile.set_set]
  cases h : s.env.espOperand with
  | fault => exact absurd h hp
  | sequential =>
    rw [exec_pop_of_sequential ⟨rfl, rfl⟩ (hpolicy.trans h), hv, andThen_next, store, andThen_next, State.popped, hset,
      State.getReg_setReg_same, if_pos rfl]
  | before =>
    rw [exec_pop_of_before ⟨rfl, rfl⟩ (hpolicy.trans h), hv, andThen_next, store, andThen_next, State.popped, hset,
      if_neg (by decide)]

end Sys2Proof.Machine

namespace Sys2Proof.Claims

open Sys2Proof Sys2Proof.Machine

/-- Settles O42: DEST is a register other than ESP, or a word whose address does not move with ESP. -/
theorem popResult : Obligations.PopResult := by
  intro d s hi hdep hm
  obtain ⟨hloc, hindex⟩ := checkDest_eq_none.mp hi.1
  have hp : espPolicy s d ≠ .fault := by simp [espPolicy_of_not_dependsOnEsp s hdep]
  refine ⟨fun v hv hok => ?_, fun f => exec_pop_of_read_fault hi hp, fun v f hv hf => ?_⟩
  · cases d with
    | reg r =>
      have hr : r ≠ .esp := by simpa [dependsOnEsp] using hdep
      refine ⟨.reg r, _, rfl, exec_pop_reg hr hv, State.getReg_setReg_same s.popped r v, ?_, rfl, rfl, rfl,
        (onlyWrites_setReg s .esp _).trans (onlyWrites_setReg s.popped r v)⟩
      exact RegFile.get_set_ne s.popped.regs v hr.symm
    | ind i =>
      have htarget := popTarget_of_not_dependsOnEsp (s := s) hindex hdep
      obtain ⟨t, ht⟩ := exec_pop_ind_of_ok hi hp hm hv (htarget ▸ hok)
      rw [htarget] at ht
      exact ⟨.word (ea s i), t, rfl, ht⟩
    | imm n | lbl l => cases hloc
  · cases d with
    | ind i => exact exec_pop_ind_of_fault hi hp hv (popTarget_of_not_dependsOnEsp (s := s) hindex hdep ▸ hf)
    | imm n | lbl l | reg r => cases hf

theorem popOnEsp : PopOnEsp := by
  intro d s hi hdep hm
  have hpolicy := espPolicy_of_dependsOnEsp s hdep
  refine ⟨fun hp => exec_stackOperand_of_policy_fault (.inr (.inl rfl)) hi (hpolicy.trans hp), fun hp => ?_⟩
  have hp' : espPolicy s d ≠ .fault := by rwa [hpolicy]
  refine ⟨fun f => exec_pop_of_read_fault hi hp', fun v hv => ⟨?_, ?_, ?_⟩⟩
  · rintro rfl
    exact ⟨_, exec_pop_esp hp hv, State.getReg_setReg_same s .esp _, rfl, rfl, rfl, onlyWrites_setReg s .esp _⟩
  · rintro i rfl hok
    exact exec_pop_ind_of_ok hi hp' hm hv hok
  · rintro i f rfl hf
    exact exec_pop_ind_of_fault hi hp' hv hf

theorem dependsOnEsp_iff (o : Operand) :
    dependsOnEsp o = true ↔ o = .reg .esp ∨ ∃ i, o = .ind i ∧ i.base = some .esp := by
  cases o <;> simp [dependsOnEsp]

/-- Settles O43: the three instructions, each under its column of the policy table (R194). -/
theorem espOperandPolicies : Obligations.EspOperandPolicies := ⟨dependsOnEsp_iff, pushOnEsp, popOnEsp, callOnEsp⟩

end Sys2Proof.Claims
end

section
/-! Cmp, Jmp, Call, Ret and J (R210 to R214): at most one read or one push, then the flags and EIP alone. -/

namespace Sys2Proof.Machine

/-- Flags, EIP and the count of draws are no place (R97). -/
theorem onlyWrites_nil_of_eq {s t : State} (hregs : t.regs = s.regs) (hmem : t.mem = s.mem) (henv : t.env = s.env) :
    OnlyWrites s t [] :=
  ⟨fun r _ => congrArg (·.get r) hregs, fun x _ => congrArg (·.readByte x) hmem, henv⟩

/-- Only a memory operand meets a fault (R96). -/
theorem isMem_of_operandFault {s : State} {o : Operand} {f : Fault} (h : operandFault s o = some f) : o.isMem = true := by
  cases o with
  | ind i => rfl
  | imm n | lbl l | reg r => cases h

theorem exec_cmp_of_admissible {o₁ o₂ : Operand} {s : State} (hi : Admissible (.cmp o₁ o₂) s) :
    exec (.cmp o₁ o₂) s = andThen (val s o₁) fun x =>
      andThen (val s o₂) fun v => .next (s.withFlags (subFlags x v (subValue x v))).advance :=
  ifAdmissible_of_admissible hi _

/-- The operands of Cmp are not both memory (R101), so the one read that faults decides. -/
theorem exec_cmp_of_fault {o₁ o₂ : Operand} {s : State} {f : Fault} (hi : Admissible (.cmp o₁ o₂) s)
    (h : operandFault s o₁ = some f ∨ operandFault s o₂ = some f) : exec (.cmp o₁ o₂) s = .fault f := by
  obtain ⟨hmem, -, -⟩ := checkSrcSrc_eq_none.mp hi.1
  rw [exec_cmp_of_admissible hi]
  rcases h with h₁ | h₂
  · rw [val_eq_fault.mpr h₁, andThen_fault]
  · rcases val_cases s o₁ with ⟨-, a, ha⟩ | ⟨g, h₁, -⟩
    · rw [ha, andThen_next, val_eq_fault.mpr h₂, andThen_fault]
    · exact absurd ⟨isMem_of_operandFault h₁, isMem_of_operandFault h₂⟩ hmem

theorem exec_jmp_of_admissible {src : Operand} {s : State} (hi : Admissible (.jmp src) s) :
    exec (.jmp src) s = andThen (val s src) fun w => .next (s.jump w) :=
  ifAdmissible_of_admissible hi _

theorem exec_ret_of_fault {s : State} {f : Fault} (hf : s.memRead (s.getReg .esp) = .fault f) :
    exec .ret s = .fault f := by
  rw [exec, execRet, ifAdmissible_of_admissible ⟨rfl, rfl⟩, hf, andThen_fault]

/-- J to a resolved label is a jump, to the label's address or to `npc` (R214). -/
theorem exec_j_of_label {cc : CC} {l : Label} {s : State} {a : Word} (ha : s.env.label? l = some a) :
    exec (.j cc l) s = .next (s.jump (if s.flags.cond cc = true then a else s.npc)) := by
  have hlabels : s.env.unresolved (Instr.j cc l).labels = none :=
    unresolved_eq_none.mpr fun l' hl' => ⟨a, by rwa [List.mem_singleton.mp hl']⟩
  rw [exec, execJ, ifAdmissible_of_admissible ⟨rfl, hlabels⟩, labelAddr_of_label ha]
  split <;> rfl

end Sys2Proof.Machine

namespace Sys2Proof.Claims

open Sys2Proof Sys2Proof.Machine

/-- Settles O45: Cmp reads both operands and leaves the flags Sub would. -/
theorem cmpResult : Obligations.CmpResult := by
  intro o₁ o₂ s hi
  refine ⟨fun a v ha hv => ?_, fun f => exec_cmp_of_fault hi⟩
  refine ⟨(s.withFlags (subFlags a v (subValue a v))).advance, ?_, ?_, rfl, rfl, onlyWrites_nil_of_eq rfl rfl rfl⟩
  · rw [exec_cmp_of_admissible hi, ha, andThen_next, hv, andThen_next]
  · rw [Int.zero_sub]
    exact subFlagRule_subFlags a v _

/-- Settles O46: Jmp sets EIP to the value read, whatever it is. -/
theorem jmpResult : Obligations.JmpResult := by
  intro src s hi
  refine ⟨fun w hw => ⟨s.jump w, ?_, rfl, rfl, rfl, onlyWrites_nil_of_eq rfl rfl rfl⟩, fun f hf => ?_⟩
  · rw [exec_jmp_of_admissible hi, hw, andThen_next]
  · rw [exec_jmp_of_admissible hi, val_eq_fault.mpr hf, andThen_fault]

/-- Settles O47: Call evaluates its operand in the state before it, then pushes `npc` and jumps. -/
theorem callResult : Obligations.CallResult := by
  intro src s hi hdep hm
  obtain ⟨hnext, hfaults⟩ := exec_eq_of_pushes (exec_call_of_before hi (espPolicy_of_not_dependsOnEsp s hdep))
  exact ⟨fun w hw hok =>
    ⟨_, hnext w hw hok, rfl, rfl, readWord_pushed s.npc hm hok, rfl, rfl, onlyWrites_pushed s s.npc⟩, hfaults⟩

/-- Settles O48: Ret reads the word at ESP, moves ESP up and jumps to that word. -/
theorem retResult : Obligations.RetResult := fun s =>
  ⟨fun _ hw => ⟨_, exec_ret_of_memRead hw, rfl, State.getReg_setReg_same s .esp _, rfl, rfl, onlyWrites_setReg s .esp _⟩,
    fun _ => exec_ret_of_fault⟩

/-- Settles O49: J is a jump either way, and so changes EIP alone. -/
theorem conditionalJumpResult : Obligations.ConditionalJumpResult := fun _ _ _ _ ha =>
  ⟨_, exec_j_of_label ha, rfl, rfl, rfl, onlyWrites_nil_of_eq rfl rfl rfl⟩

end Sys2Proof.Claims
end

section
/-! The causes of faults (R241, R242). `FaultsOnly P r` says that whatever fault `r` answers meets `P`; each shared operation
answers only faults that have their cause, and so does every sequence of them. -/

namespace Sys2Proof.Machine

open Sys2Proof.Claims

/-- Whatever fault the operation answers meets `P`. -/
def FaultsOnly {α : Type} (P : Fault → Prop) (r : Result α) : Prop := ∀ f, r = .fault f → P f

theorem faultsOnly_next {α : Type} {P : Fault → Prop} (a : α) : FaultsOnly P (.next a : Result α) := fun _ h => nomatch h

theorem faultsOnly_raise {α : Type} {P : Fault → Prop} {f : Fault} (h : P f) : FaultsOnly P (raise f : Result α) := by
  intro g hg
  rwa [← (raise_eq_fault f g).mp hg]

/-- The second part is reached only with what the first answers. -/
theorem FaultsOnly.andThen {α β : Type} {P : Fault → Prop} {r : Result α} {k : α → Result β} (hr : FaultsOnly P r)
    (hk : ∀ a, r = .next a → FaultsOnly P (k a)) : FaultsOnly P (andThen r k) := by
  intro f h
  rcases andThen_eq_fault.mp h with h | ⟨a, ha, h⟩
  · exact hr f h
  · exact hk a ha f h

theorem FaultsOnly.ifAdmissible {P : Fault → Prop} {i : Instr} {s : State} {r : Result State}
    (h : Admissible i s → FaultsOnly P r) : FaultsOnly P (ifAdmissible i s r) := by
  intro f hf
  obtain ⟨hi, hr⟩ := ifAdmissible_eq_fault.mp hf
  exact h hi f hr

/-! ### The cause of each operation's faults -/

/-- A fault of the access check, for an instruction whose form accesses memory (R63). -/
theorem faultCause_of_accessFault {i : Instr} {s : State} {a : Word} {f : Fault} (hi : accessesMemory i = true)
    (h : s.env.accessFault a = some f) : FaultCause i s f := by
  rcases accessFault_eq_some.mp h with ⟨ha, rfl⟩ | ⟨ha, hvalid, rfl⟩
  · exact ⟨fun h4 => Bool.false_ne_true (ha.symm.trans (aligned_iff.mpr h4)), hi⟩
  · exact ⟨aligned_iff.mp ha, hvalid, hi⟩

/-- A fault of an operand's access, in any state `e` with the parameters of `s`: the operand is then a memory operand. -/
theorem faultCause_of_operandFault {i : Instr} {s e : State} {o : Operand} {f : Fault} (he : e.env = s.env)
    (hi : o.isMem = true → accessesMemory i = true) (h : operandFault e o = some f) : FaultCause i s f := by
  cases o with
  | ind j =>
    refine faultCause_of_accessFault (a := ea e j) (hi rfl) ?_
    rwa [operandFault, he] at h
  | imm n | lbl l | reg r => exact absurd h nofun

theorem memRead_faultsOnly {i : Instr} {s : State} (a : Word) (hi : accessesMemory i = true) :
    FaultsOnly (FaultCause i s) (s.memRead a) :=
  fun _ h => faultCause_of_accessFault hi (memRead_eq_fault.mp h)

theorem pushWord_faultsOnly {i : Instr} {s : State} (v : Word) (hi : accessesMemory i = true) :
    FaultsOnly (FaultCause i s) (s.pushWord v) :=
  fun _ h => faultCause_of_accessFault hi (pushWord_eq_fault.mp h)

theorem val_faultsOnly {i : Instr} {s e : State} {o : Operand} (he : e.env = s.env)
    (hi : o.isMem = true → accessesMemory i = true) : FaultsOnly (FaultCause i s) (val e o) :=
  fun _ h => faultCause_of_operandFault he hi (val_eq_fault.mp h)

theorem store_faultsOnly {i : Instr} {s e : State} {d : Operand} (v : Word) (he : e.env = s.env)
    (hi : d.isMem = true → accessesMemory i = true) : FaultsOnly (FaultCause i s) (store e d v) :=
  fun _ h => faultCause_of_operandFault he hi (store_eq_fault.mp h)

theorem modifyDest_faultsOnly {i : Instr} {s : State} {d : Operand} (g : Word → Word) (fl : Word → Flags)
    (hi : d.isMem = true → accessesMemory i = true) : FaultsOnly (FaultCause i s) (modifyDest s d g fl) :=
  fun _ h => faultCause_of_operandFault rfl hi (modifyDest_eq_fault.mp h)

/-- A well-formed amount is an immediate or ECX (R102), so its only fault is the policy's (R170). -/
theorem shiftAmount_faultsOnly {i : Instr} {s : State} {d a : Operand} (h : IsShift i d a) (hi : Admissible i s) :
    FaultsOnly (FaultCause i s) (shiftAmount s a) := by
  intro f hf
  obtain ⟨-, hamt, -⟩ := checkDestAmt_eq_none.mp ((admissible_isShift h).mp hi).1
  obtain ⟨w, hw, hlt, hp, rfl⟩ := (shiftAmount_eq_fault hamt).mp hf
  exact ⟨hlt, hp, d, a, w, h, hw, rfl⟩

theorem espPolicy_eq_fault {s : State} {o : Operand} :
    espPolicy s o = .fault ↔ dependsOnEsp o = true ∧ s.env.espOperand = .fault := by
  cases h : dependsOnEsp o <;> simp [espPolicy, h]

/-- The policy `fault` applies to the operand of Push, Pop or Call (R194). -/
theorem faultCause_espOperand {i : Instr} {s : State} {o : Operand} (h : StackOperand i o) (hp : espPolicy s o = .fault) :
    FaultCause i s (.espOperand i) := by
  obtain ⟨hdep, hpolicy⟩ := espPolicy_eq_fault.mp hp
  exact ⟨rfl, hpolicy, o, h, hdep⟩

/-! ### Instructions -/

/-- Every fault of an instruction comes from one of its operations, and has its cause (R242). -/
theorem exec_faultsOnly (i : Instr) (s : State) : FaultsOnly (FaultCause i s) (exec i s) := by
  cases i with
  | neg d | not d | setb d cc => exact .ifAdmissible fun _ => modifyDest_faultsOnly _ _ id
  | add d src | sub d src | and d src | or d src | xor d src =>
    exact .ifAdmissible fun _ => .andThen (val_faultsOnly rfl Bool.or_inr) fun _ _ => modifyDest_faultsOnly _ _ Bool.or_inl
  | sar d amt | shl d amt | shr d amt =>
    exact .ifAdmissible fun hi => .andThen (shiftAmount_faultsOnly (d := d) (by simp [IsShift]) hi) fun _ _ =>
      modifyDest_faultsOnly _ _ id
  | imul d src => exact .ifAdmissible fun _ => .andThen (val_faultsOnly rfl id) fun _ _ => faultsOnly_next _
  | lea d src => exact .ifAdmissible fun _ => faultsOnly_next _
  | mov d src =>
    exact .ifAdmissible fun _ => .andThen (val_faultsOnly rfl Bool.or_inr) fun v _ =>
      .andThen (store_faultsOnly v rfl Bool.or_inl) fun _ _ => faultsOnly_next _
  | push src =>
    refine .ifAdmissible fun _ => ?_
    cases hp : espPolicy s src with
    | fault => exact faultsOnly_raise (faultCause_espOperand (.inl rfl) hp)
    | sequential | before =>
      exact .andThen (val_faultsOnly rfl fun _ => rfl) fun v _ =>
        .andThen (pushWord_faultsOnly v rfl) fun _ _ => faultsOnly_next _
  | pop d =>
    refine .ifAdmissible fun _ => ?_
    cases hp : espPolicy s d with
    | fault => exact faultsOnly_raise (faultCause_espOperand (.inr (.inl rfl)) hp)
    | sequential | before =>
      exact .andThen (memRead_faultsOnly _ rfl) fun v _ =>
        .andThen (store_faultsOnly v rfl fun _ => rfl) fun _ _ => faultsOnly_next _
  | cmp a b =>
    exact .ifAdmissible fun _ => .andThen (val_faultsOnly rfl Bool.or_inl) fun _ _ =>
      .andThen (val_faultsOnly rfl Bool.or_inr) fun _ _ => faultsOnly_next _
  | jmp src => exact .ifAdmissible fun _ => .andThen (val_faultsOnly rfl id) fun _ _ => faultsOnly_next _
  | call src =>
    refine .ifAdmissible fun _ => ?_
    cases hp : espPolicy s src with
    | fault => exact faultsOnly_raise (faultCause_espOperand (.inr (.inr rfl)) hp)
    | sequential =>
      exact .andThen (val_faultsOnly rfl fun _ => rfl) fun _ _ => .andThen (pushWord_faultsOnly _ rfl) fun u hu =>
        .andThen (val_faultsOnly (pushWord_keeps_env s _ u hu) fun _ => rfl) fun _ _ => faultsOnly_next _
    | before =>
      exact .andThen (val_faultsOnly rfl fun _ => rfl) fun _ _ =>
        .andThen (pushWord_faultsOnly _ rfl) fun _ _ => faultsOnly_next _
  | ret =>
    exact FaultsOnly.ifAdmissible (i := .ret) (s := s) fun _ =>
      .andThen (memRead_faultsOnly _ rfl) fun _ _ => faultsOnly_next _
  | j cc target => exact FaultsOnly.ifAdmissible (i := .j cc target) (s := s) fun _ => faultsOnly_next _

/-- The four faults an instruction can have a cause for, with their codes (R241). -/
theorem code_cases_of_faultCause {i : Instr} {s : State} {f : Fault} (h : FaultCause i s f) :
    (f.code = 2 ∧ f = .espOperand i) ∨ (f.code = 3 ∧ ∃ n, f = .shiftAmount n) ∨
      (f.code = 4 ∧ ∃ a, f = .misaligned a) ∨ (f.code = 5 ∧ ∃ a, f = .invalidAddress a) := by
  cases f with
  | noInstruction pc => exact h.elim
  | espOperand j =>
    obtain ⟨rfl, -⟩ := h
    exact .inl ⟨rfl, rfl⟩
  | shiftAmount n => exact .inr (.inl ⟨rfl, n, rfl⟩)
  | misaligned a => exact .inr (.inr (.inl ⟨rfl, a, rfl⟩))
  | invalidAddress a => exact .inr (.inr (.inr ⟨rfl, a, rfl⟩))

/-- A step faults at the fetch, or in the instruction fetched (R26). -/
theorem step_eq_fault {s : State} {f : Fault} :
    step s = .fault f ↔ s.pc ≠ s.env.exitAddr ∧
      ((s.env.instrAt s.pc = none ∧ f = .noInstruction s.pc) ∨ ∃ i, s.env.instrAt s.pc = some i ∧ exec i s = .fault f) := by
  by_cases hx : s.pc = s.env.exitAddr
  · simp [step_of_final hx, hx]
  · cases hi : s.env.instrAt s.pc with
    | none => simp [step_of_no_instr hx hi, hx, eq_comm]
    | some i => simp [step_of_instr hx hi, hx]

end Sys2Proof.Machine

namespace Sys2Proof.Claims

open Sys2Proof Sys2Proof.Machine

/-- Settles O14: the instruction at EIP is one the loader has admitted, and such an instruction is never refused. -/
theorem launchedMachineStepsOrFaults : Obligations.LaunchedMachineStepsOrFaults :=
  fun _ ⟨_, hsound⟩ hx => step_next_or_fault hsound hx

/-- Settles O54: every operation of the instruction answers only faults that have their cause. -/
theorem faultsOfEachInstruction : Obligations.FaultsOfEachInstruction := exec_faultsOnly

/-- Settles O55: by whether the fetch faults or the instruction it finds. -/
theorem faultsOfAStep : Obligations.FaultsOfAStep := by
  intro s f h
  obtain ⟨hx, ⟨hnone, rfl⟩ | ⟨i, hi, hf⟩⟩ := step_eq_fault.mp h
  · exact ⟨hx, .inl ⟨rfl, rfl, hnone⟩⟩
  · have hcause := exec_faultsOnly i s f hf
    exact ⟨hx, .inr ⟨i, hi, hcause, code_cases_of_faultCause hcause⟩⟩

end Sys2Proof.Claims
end

section
/-! The priority of faults (R244): the first operation of an instruction that faults decides, whatever the later ones meet. -/

namespace Sys2Proof.Machine

open Sys2Proof.Claims

/-- The operand of Push and Call is read first, before the word below ESP is written. -/
theorem exec_push_or_call_of_operandFault {i : Instr} {o : Operand} {s : State} {f : Fault} (h : i = .push o ∨ i = .call o)
    (hi : Admissible i s) (hdep : dependsOnEsp o = false) (hf : operandFault s o = some f) : exec i s = .fault f := by
  have hp := espPolicy_of_not_dependsOnEsp s hdep
  rcases h with rfl | rfl
  · rw [exec_push_of_before hi hp, val_eq_fault.mpr hf, andThen_fault]
  · rw [exec_call_of_before hi hp, val_eq_fault.mpr hf, andThen_fault]

theorem accessFault_of_not_aligned {e : Env} {a : Word} (h : a.toNat % 4 ≠ 0) : e.accessFault a = some (.misaligned a) :=
  accessFault_eq_some.mpr (.inl ⟨Bool.eq_false_iff.mpr fun ha => h (aligned_iff.mp ha), rfl⟩)

end Sys2Proof.Machine

namespace Sys2Proof.Claims

open Sys2Proof Sys2Proof.Machine

/-- Settles O56: in each clause the fault is that of the instruction's first operation, or of the first test of an access. -/
theorem faultPriority : Obligations.FaultPriority := by
  intro s
  refine ⟨step_of_no_instr, fun i o hio hi hp hdep => ?_, fun i d a w hshift hi hp hw hlt => ?_,
    fun _ _ _ => exec_push_or_call_of_operandFault, fun d f hi hdep hf => ?_, fun a v ha => ?_⟩
  · exact exec_stackOperand_of_policy_fault hio hi (espPolicy_eq_fault.mpr ⟨hdep, hp⟩)
  · obtain ⟨-, hfault, -⟩ := shiftAmountPolicies d a s w hw
    exact hfault hlt hp i hshift hi
  · refine exec_pop_of_read_fault hi ?_ (memRead_of_fault hf)
    simp [espPolicy_of_not_dependsOnEsp s hdep]
  · exact ⟨memRead_of_fault (accessFault_of_not_aligned ha), memWrite_of_fault v (accessFault_of_not_aligned ha)⟩

end Sys2Proof.Claims
end

section
/-! Launch and reset (R40, R271): the loader's checks in the words of the rule, and the state that a launch and the model's
reset leave. -/

namespace Sys2Proof.Machine

open Sys2Proof.Claims

/-- What the loader checks on the text and on its decoding is what R271 lists. -/
theorem launchChecks_iff {l : Launch} {prog : List (Word × Instr)} :
    LaunchChecks l prog ↔ decodeText l.text = .ok prog ∧ l.failedCheck prog = none := by
  have hlabels : (∀ p ∈ prog, (l.env prog).unresolved p.2.labels = none) ↔
      ∀ p ∈ prog, ∀ lb ∈ p.2.labels, ∃ a, lookup lb l.lbl = some a := forall₂_congr fun _ _ => unresolved_eq_none
  rw [decodeText_eq_ok, failedCheck_eq_none, hlabels, noOverlap_eq_true]
  simp only [aligned_iff]
  constructor
  · rintro ⟨htext, hres, haddr, hilen, hapart, hrest⟩
    exact ⟨htext, hres, hilen, haddr, hapart, hrest⟩
  · rintro ⟨htext, hres, hilen, haddr, hapart, hrest⟩
    exact ⟨htext, hres, haddr, hilen, hapart, hrest⟩

/-- The loader accepts a launch exactly when the checks hold, and answers its first state. -/
theorem start_eq_ok_iff_launchChecks {l : Launch} {s : State} :
    l.start = .ok s ↔ ∃ prog, LaunchChecks l prog ∧ s = l.firstState prog := by
  simp only [start_eq_ok, launchChecks_iff, and_assoc]

section
variable (l : Launch) (prog : List (Word × Instr))

theorem Launch.getReg_firstState_esp : (l.firstState prog).getReg .esp = l.stackTop - 4 :=
  RegFile.get_set_same l.reg0 .esp _

theorem Launch.getReg_firstState_ne {r : Reg} (h : r ≠ .esp) : (l.firstState prog).getReg r = l.reg0.get r :=
  RegFile.get_set_ne l.reg0 _ h

end

/-- The return address stands in the word that ESP names. -/
theorem Launch.readWord_firstState_stack {l : Launch} (prog : List (Word × Instr)) (hmem0 : ∀ p ∈ l.mem0, aligned p.1 = true)
    (hstack : aligned l.stackTop = true) : (l.firstState prog).mem.readWord (l.stackTop - 4).toNat = l.exitAddr :=
  Memory.readWord_writeWord_same _ (wf_loadWords hmem0 rfl) (aligned_bound (aligned_sub_four hstack))

/-- Every other word is that of `Mem0`. -/
theorem Launch.readWord_firstState_ne {l : Launch} (prog : List (Word × Instr)) {a : Word} (hstack : aligned l.stackTop = true)
    (ha : aligned a = true) (hne : a ≠ l.stackTop - 4) :
    (l.firstState prog).mem.readWord a.toNat = (loadWords [] l.mem0).readWord a.toNat :=
  Memory.readWord_writeWord_ne _ _ (aligned_disjoint (aligned_sub_four hstack) ha hne.symm)

/-- Without a program the parameters are sound as soon as `ILEN` and `EXIT_ADDR` are. -/
theorem Env.sound_of_prog_nil {e : Env} (hprog : e.prog = []) (hn : e.ilen ≠ 0) (hn4 : e.ilen % 4 = 0)
    (hexit : aligned e.exitAddr = true) : e.Sound := by
  refine ⟨?_, hn, hn4, ?_, hexit, ?_⟩
  · simp [hprog]
  · simp [hprog, noOverlap]
  · simp [hprog, Env.instrAt, lookup]

end Sys2Proof.Machine

namespace Sys2Proof.Claims

open Sys2Proof Sys2Proof.Machine

/-- Settles O17: the checks are the loader's, and the first state stores one word over `Mem0`, below `STACK_TOP`. -/
theorem launchProtocol : Obligations.LaunchProtocol := by
  refine fun l => ⟨?_, fun s hs => ?_⟩
  · simp only [start_eq_ok_iff_launchChecks]
    constructor
    · rintro ⟨_, prog, hc, -⟩
      exact ⟨prog, hc⟩
    · rintro ⟨prog, hc⟩
      exact ⟨_, prog, hc, rfl⟩
  · obtain ⟨prog, hc, rfl⟩ := start_eq_ok_iff_launchChecks.mp hs
    obtain ⟨-, hfailed⟩ := launchChecks_iff.mp hc
    obtain ⟨-, -, -, -, -, ⟨hstack, -⟩, -, hmem0⟩ := failedCheck_eq_none.mp hfailed
    refine ⟨⟨prog, hc, rfl⟩, rfl, l.getReg_firstState_esp prog, fun _ => l.getReg_firstState_ne prog, rfl, ?_, ?_, ?_⟩
    · exact Launch.readWord_firstState_stack prog hmem0 hstack
    · exact fun _ ha => Launch.readWord_firstState_ne prog hstack (aligned_iff.mpr ha)
    · exact readWord_loadWords hmem0 rfl

/-- Settles O10: the memory holds the four bytes of `EXIT_ADDR` in canonical form, and no program is loaded. -/
theorem resetMeetsInvariant : Obligations.ResetMeetsInvariant :=
  ⟨by decide, Env.sound_of_prog_nil rfl (by decide) (by decide) (by decide)⟩

end Sys2Proof.Claims
end
